-- ==== Sys2Proof/Word.lean ====
section
/-! DEFINITION. The machine's two bit-vector widths: a register, address or 32-bit operand (00_scope.md R6, XLEN = ALEN = 32), and a byte of memory. -/

namespace Sys2Proof

/-- A 32-bit value: a general register, `pc`, `FLAGS`, an effective address, a 32-bit immediate (R6, R8). -/
abbrev Word := BitVec 32

/-- One byte of memory, an opcode byte or a ModRM byte (R8). -/
abbrev Byte := BitVec 8

end Sys2Proof
end

