-- ==== Sys2Proof/Config.lean ====
section
/-! DEFINITION. The open parameters of 00_scope.md R6 that a step reads, and the free values: constants without a body, of which nothing can be proved but that they are 32-bit values. -/

namespace Sys2Proof

/-- `FLAG_POLICY` (10_state.md R27): what ADD, SUB and INC do to `FLAGS`. -/
inductive FlagPolicy where
  | preserve   -- every instruction leaves FLAGS unchanged; the spec's default
  | havoc      -- ADD, SUB and INC set FLAGS to an arbitrary value
  deriving DecidableEq, Repr

/-- The parameters of R6 that one machine fixes for its whole life. State carries them as data
(assumption log 1 and 2), so a statement about every state is one about every choice of them. -/
structure Params where
  /-- `MEM_SIZE`, the memory capacity in bytes; R40 bounds it by `1 <= MEM_SIZE <= 2^32`. -/
  memSize : Nat
  /-- `FLAG_POLICY`. -/
  flagPolicy : FlagPolicy
  deriving DecidableEq, Repr

/-- DESIGN CHOICE, log 3: the value a havoc of `FLAGS` draws, by the number of the draw
("an arbitrary 32-bit value, a free draw of the step", R27). -/
opaque Config.freeFlags : Nat → Word

/-- DESIGN CHOICE, log 7: what the 32-bit `FAULT_ADDR` holds when the failing fetch is at an address
of 2^32 or more (R29 gives it 32 bits, R61 takes the address on unbounded integers). -/
opaque Config.freeFaultAddr : Nat → Word

end Sys2Proof
end

