-- ==== Sys2Proof/Syntax.lean ====
section
/-! DEFINITION. The instructions as syntax: the eight registers, the ModRM r/m operand, and one constructor of Instr per row of spec/opcode_table.json. -/

namespace Sys2Proof

/-- The general registers `x[0]` to `x[7]` by name, in index order (10_state.md R20, R21).
The names and the order beyond index 0 are the family's: PRESUMED, log 12. -/
inductive Reg where
  | eax | ecx | edx | ebx | esp | ebp | esi | edi
  deriving DecidableEq, Repr

/-- The r/m operand a ModRM byte and its displacement encode, one constructor per `mod`
(30_encoding.md R65 to R68). `WellFormed` excludes the forms R69 rejects. -/
inductive RM where
  | reg (r : Reg)                            -- mod 3: register-direct
  | mem (base : Reg)                         -- mod 0: [base]
  | memDisp8 (base : Reg) (d : BitVec 8)     -- mod 1: [base + disp8]
  | memDisp32 (base : Reg) (d : BitVec 32)   -- mod 2: [base + disp32]
  deriving DecidableEq, Repr

/-- The ISA subset (00_scope.md R2): one constructor per row of the opcode table, its operands as
the encoding holds them, before any extension. -/
inductive Instr where
  | movRegImm (r : Reg) (imm : BitVec 32)      -- MOV r32, imm32      R100
  | movRmReg (rm : RM) (reg : Reg)             -- MOV r/m32, r32      R101
  | movRegRm (reg : Reg) (rm : RM)             -- MOV r32, r/m32      R102
  | addRmReg (rm : RM) (reg : Reg)             -- ADD r/m32, r32      R111
  | addRegRm (reg : Reg) (rm : RM)             -- ADD r32, r/m32      R112
  | addRmImm8 (rm : RM) (imm : BitVec 8)       -- ADD r/m32, imm8     R113
  | subRmImm8 (rm : RM) (imm : BitVec 8)       -- SUB r/m32, imm8     R114
  | incRm (rm : RM)                            -- INC r/m32           R115
  | pushReg (r : Reg)                          -- PUSH r32            R132
  | popReg (r : Reg)                           -- POP r32             R133
  | pushImm8 (imm : BitVec 8)                  -- PUSH imm8           R134
  | pushImm32 (imm : BitVec 32)                -- PUSH imm32          R135
  | callRel32 (rel : BitVec 32)                -- CALL rel32          R136
  | ret                                        -- RET                 R137
  | leave                                      -- LEAVE               R138
  | jmpRel8 (rel : BitVec 8)                   -- JMP rel8            R150
  | jmpRel32 (rel : BitVec 32)                 -- JMP rel32           R151
  deriving DecidableEq, Repr

/-- The r/m operand of an instruction whose format has a ModRM byte (R62). -/
def Instr.rm? : Instr → Option RM
  | .movRmReg rm _ => some rm
  | .movRegRm _ rm => some rm
  | .addRmReg rm _ => some rm
  | .addRegRm _ rm => some rm
  | .addRmImm8 rm _ => some rm
  | .subRmImm8 rm _ => some rm
  | .incRm rm => some rm
  | .movRegImm _ _ => none
  | .pushReg _ => none
  | .popReg _ => none
  | .pushImm8 _ => none
  | .pushImm32 _ => none
  | .callRel32 _ => none
  | .ret => none
  | .leave => none
  | .jmpRel8 _ => none
  | .jmpRel32 _ => none

end Sys2Proof
end

