-- ==== Sys2Proof/WellFormed.lean ====
section
/-! DEFINITION. Well-formed instructions: those whose ModRM form the core supports (30_encoding.md R69). Every other field admits all its values (R63, R65, R73). -/

namespace Sys2Proof

/-- R69: a memory form with base ESP (rm = 4, mod 0, 1 or 2) and the form mod 0 with base EBP
(rm = 5) are rejected; register-direct is legal for every register (R65). -/
def RM.wellFormed : RM → Bool
  | .reg _ => true
  | .mem base => base != .esp && base != .ebp
  | .memDisp8 base _ => base != .esp
  | .memDisp32 base _ => base != .esp

/-- An instruction is well formed when its r/m operand, if it has one, is. -/
def Instr.wellFormed (i : Instr) : Bool :=
  match i.rm? with
  | some rm => rm.wellFormed
  | none => true

end Sys2Proof
end

