-- ==== Sys2Proof/Decode.lean ====
section
/-! DEFINITION. The instruction encoding of 30_encoding.md: the dispatch table, the ModRM parser, the decoder (total on any bytes, rejecting by name) and the encoder, with the byte-order and sign-extension helpers they share. -/

namespace Sys2Proof

/-! ### Byte order and extension -/

/-- Four bytes, lowest address first, as a little-endian word (20_memory.md R42). -/
def wordOfBytes (b0 b1 b2 b3 : Byte) : Word := b3 ++ b2 ++ b1 ++ b0

/-- Byte `k` of a word, byte 0 the least significant (R43). -/
def byteOfWord (v : Word) (k : Nat) : Byte := v.extractLsb' (8 * k) 8

/-- The bytes of a word in memory order, lowest address first (R43). -/
def bytesOfWord (v : Word) : List Byte :=
  [byteOfWord v 0, byteOfWord v 1, byteOfWord v 2, byteOfWord v 3]

/-- `sext_32` of an 8-bit value (00_scope.md R7). -/
def sext32 (b : Byte) : Word := b.signExtend 32

/-! ### Register fields -/

/-- The 3-bit index of a register (10_state.md R21). -/
def Reg.toBits : Reg → BitVec 3
  | .eax => 0#3
  | .ecx => 1#3
  | .edx => 2#3
  | .ebx => 3#3
  | .esp => 4#3
  | .ebp => 5#3
  | .esi => 6#3
  | .edi => 7#3

/-- The register a 3-bit field names (R21, R22). -/
def Reg.ofBits (b : BitVec 3) : Reg :=
  if b = 0#3 then .eax else if b = 1#3 then .ecx else if b = 2#3 then .edx else if b = 3#3 then .ebx
  else if b = 4#3 then .esp else if b = 5#3 then .ebp else if b = 6#3 then .esi else .edi

/-! ### The dispatch table -/

/-- The mapped entries of the dispatch table (R75). Three PLAIN entries carry the register that the
opcode's low bits name (R63); `grp83` and `grpFF` are the GROUP entries, and `movRmReg`, `movRegRm`,
`addRmReg`, `addRegRm` the MODRM ones. -/
inductive Entry where
  | movRegImm (r : Reg) | pushReg (r : Reg) | popReg (r : Reg)
  | pushImm8 | pushImm32 | callRel32 | ret | leave | jmpRel8 | jmpRel32
  | movRmReg | movRegRm | addRmReg | addRegRm | grp83 | grpFF
  deriving DecidableEq, Repr

/-- One row of the opcode table (R84): an opcode byte `op` matches when `op &&& mask = pattern`;
the entry may use the register field of the opcode. -/
structure OpcodeRow where
  mask : Byte
  pattern : Byte
  entry : Reg → Entry

/-- The 16 mapped entries of R75, in the table's order. The byte values but `B8` are IA-32's:
PRESUMED, log 12. -/
def opcodeRows : List OpcodeRow :=
  [ ⟨0xF8#8, 0xB8#8, .movRegImm⟩,
    ⟨0xFF#8, 0x89#8, fun _ => .movRmReg⟩,
    ⟨0xFF#8, 0x8B#8, fun _ => .movRegRm⟩,
    ⟨0xFF#8, 0x01#8, fun _ => .addRmReg⟩,
    ⟨0xFF#8, 0x03#8, fun _ => .addRegRm⟩,
    ⟨0xFF#8, 0xFF#8, fun _ => .grpFF⟩,
    ⟨0xFF#8, 0x83#8, fun _ => .grp83⟩,
    ⟨0xF8#8, 0x50#8, .pushReg⟩ ] ++
  [ ⟨0xF8#8, 0x58#8, .popReg⟩,
    ⟨0xFF#8, 0x6A#8, fun _ => .pushImm8⟩,
    ⟨0xFF#8, 0x68#8, fun _ => .pushImm32⟩,
    ⟨0xFF#8, 0xE8#8, fun _ => .callRel32⟩,
    ⟨0xFF#8, 0xC3#8, fun _ => .ret⟩,
    ⟨0xFF#8, 0xC9#8, fun _ => .leave⟩,
    ⟨0xFF#8, 0xEB#8, fun _ => .jmpRel8⟩,
    ⟨0xFF#8, 0xE9#8, fun _ => .jmpRel32⟩ ]

/-- The register field of an opcode byte, `r = op[2:0]` (R63). -/
def opcodeReg (op : Byte) : Reg := Reg.ofBits (op.extractLsb' 0 3)

/-- `DISPATCH[op]` (R75): the entry of an opcode byte, `none` for an UNMAPPED one (R78). -/
def dispatch (op : Byte) : Option Entry :=
  (opcodeRows.find? fun row => op &&& row.mask = row.pattern).map fun row => row.entry (opcodeReg op)

/-! ### Decoding -/

/-- The two access widths of the core (20_memory.md R46). -/
inductive AccessWidth where
  | byte | dword
  deriving DecidableEq, Repr

/-- An access width in bytes. -/
def AccessWidth.bytes : AccessWidth → Nat
  | .byte => 1
  | .dword => 4

/-- Why bytes decode to no instruction (R79, R81). -/
inductive DecodeError where
  /-- R78: the opcode byte is UNMAPPED. -/
  | unsupportedOpcode (op : Byte)
  /-- R76, R77: a group's selector is UNMAPPED. -/
  | unsupportedGroupSelector (op modrm : Byte)
  /-- R69: a rejected ModRM form. -/
  | unsupportedAddressing (op modrm : Byte)
  /-- The bytes end before the fetch of `width` at `offset`; `op` and `modrm` are those already fetched. -/
  | truncated (offset : Nat) (width : AccessWidth) (op modrm : Option Byte)
  deriving DecidableEq, Repr

/-- What the decoder answers. -/
abbrev Decoded := Except DecodeError

/-- Fetch of an 8-bit field at `offset`, where `bs` are the bytes from there on (R61). -/
def takeByte (offset : Nat) (op modrm : Option Byte) : List Byte → Decoded (Byte × List Byte)
  | b :: rest => .ok (b, rest)
  | [] => .error (.truncated offset .byte op modrm)

/-- Fetch of a 32-bit little-endian field at `offset` (R61, R73). -/
def takeWord (offset : Nat) (op modrm : Option Byte) : List Byte → Decoded (Word × List Byte)
  | b0 :: b1 :: b2 :: b3 :: rest => .ok (wordOfBytes b0 b1 b2 b3, rest)
  | _ => .error (.truncated offset .dword op modrm)

/-- The fields of a ModRM byte (R64). -/
def modOf (b : Byte) : BitVec 2 := b.extractLsb' 6 2
def regOf (b : Byte) : BitVec 3 := b.extractLsb' 3 3
def rmOf (b : Byte) : BitVec 3 := b.extractLsb' 0 3

/-- The forms R69 rejects: `mod != 3` with `rm = 4`, and `mod = 0` with `rm = 5`. -/
def rejectedForm (b : Byte) : Bool :=
  (modOf b != 3#2 && rmOf b == 4#3) || (modOf b == 0#2 && rmOf b == 5#3)

/-- What `DecodeModRM` returns (R70), less the effective address, which needs the registers: the
byte, its `reg` field (second operand or selector, R71), the r/m operand, `len`, and the bytes that follow. -/
structure ModRM where
  byte : Byte
  reg : BitVec 3
  rm : RM
  len : Nat
  rest : List Byte

/-- `DecodeModRM(1)` (R70): the ModRM byte, the check of R69, then the displacement. -/
def decodeModRM (op : Byte) (bs : List Byte) : Decoded ModRM := do
  let (b, rest) ← takeByte 1 (some op) none bs
  if rejectedForm b then
    .error (.unsupportedAddressing op b)
  else
    let base := Reg.ofBits (rmOf b)
    if modOf b = 3#2 then
      .ok ⟨b, regOf b, .reg base, 1, rest⟩
    else if modOf b = 0#2 then
      .ok ⟨b, regOf b, .mem base, 1, rest⟩
    else if modOf b = 1#2 then do
      let (d, rest) ← takeByte 2 (some op) (some b) rest
      .ok ⟨b, regOf b, .memDisp8 base d, 2, rest⟩
    else do
      let (d, rest) ← takeWord 2 (some op) (some b) rest
      .ok ⟨b, regOf b, .memDisp32 base d, 5, rest⟩

/-- Group `83` (R76): the selector first, then the immediate byte (checks 6 and 7 of R81). -/
def decodeGroup83 (op : Byte) (m : ModRM) : Decoded Instr :=
  if m.reg = 0#3 then do
    let (imm, _) ← takeByte (1 + m.len) (some op) (some m.byte) m.rest
    .ok (.addRmImm8 m.rm imm)
  else if m.reg = 5#3 then do
    let (imm, _) ← takeByte (1 + m.len) (some op) (some m.byte) m.rest
    .ok (.subRmImm8 m.rm imm)
  else .error (.unsupportedGroupSelector op m.byte)

/-- Group `FF` (R77). -/
def decodeGroupFF (op : Byte) (m : ModRM) : Decoded Instr :=
  if m.reg = 0#3 then .ok (.incRm m.rm) else .error (.unsupportedGroupSelector op m.byte)

/-- What follows a mapped opcode byte, `bs` being the bytes after it (R83, checks 3 to 7 of R81). -/
def decodeEntry (op : Byte) (bs : List Byte) : Entry → Decoded Instr
  | .movRegImm r => do
    let (imm, _) ← takeWord 1 (some op) none bs
    .ok (.movRegImm r imm)
  | .pushReg r => .ok (.pushReg r)
  | .popReg r => .ok (.popReg r)
  | .pushImm8 => do
    let (imm, _) ← takeByte 1 (some op) none bs
    .ok (.pushImm8 imm)
  | .pushImm32 => do
    let (imm, _) ← takeWord 1 (some op) none bs
    .ok (.pushImm32 imm)
  | .callRel32 => do
    let (rel, _) ← takeWord 1 (some op) none bs
    .ok (.callRel32 rel)
  | .ret => .ok .ret
  | .leave => .ok .leave
  | .jmpRel8 => do
    let (rel, _) ← takeByte 1 (some op) none bs
    .ok (.jmpRel8 rel)
  | .jmpRel32 => do
    let (rel, _) ← takeWord 1 (some op) none bs
    .ok (.jmpRel32 rel)
  | .movRmReg => do
    let m ← decodeModRM op bs
    .ok (.movRmReg m.rm (Reg.ofBits m.reg))
  | .movRegRm => do
    let m ← decodeModRM op bs
    .ok (.movRegRm (Reg.ofBits m.reg) m.rm)
  | .addRmReg => do
    let m ← decodeModRM op bs
    .ok (.addRmReg m.rm (Reg.ofBits m.reg))
  | .addRegRm => do
    let m ← decodeModRM op bs
    .ok (.addRegRm (Reg.ofBits m.reg) m.rm)
  | .grp83 => do
    let m ← decodeModRM op bs
    decodeGroup83 op m
  | .grpFF => do
    let m ← decodeModRM op bs
    decodeGroupFF op m

/-- The decoder (R79, R80, R81): total on any bytes, the bytes in memory order from the opcode on;
bytes after the instruction are ignored. -/
def decode (bs : List Byte) : Decoded Instr := do
  let (op, rest) ← takeByte 0 none none bs
  match dispatch op with
  | none => .error (.unsupportedOpcode op)
  | some e => decodeEntry op rest e

/-! ### Encoding -/

/-- A ModRM byte from its fields (R64). -/
def modrmByte (mod : BitVec 2) (reg rm : BitVec 3) : Byte := mod ++ reg ++ rm

/-- The `mod` and `rm` fields of an r/m operand (R65 to R68). -/
def RM.modBits : RM → BitVec 2
  | .reg _ => 3#2
  | .mem _ => 0#2
  | .memDisp8 _ _ => 1#2
  | .memDisp32 _ _ => 2#2

def RM.rmBits : RM → BitVec 3
  | .reg r => r.toBits
  | .mem b => b.toBits
  | .memDisp8 b _ => b.toBits
  | .memDisp32 b _ => b.toBits

/-- The displacement bytes of an r/m operand (R66 to R68). -/
def RM.dispBytes : RM → List Byte
  | .reg _ => []
  | .mem _ => []
  | .memDisp8 _ d => [d]
  | .memDisp32 _ d => bytesOfWord d

/-- `M.len`: the ModRM byte and its displacement (R70). -/
def RM.len : RM → Nat
  | .reg _ => 1
  | .mem _ => 1
  | .memDisp8 _ _ => 2
  | .memDisp32 _ _ => 5

/-- The opcode byte of an instruction (R75). -/
def Instr.opcode : Instr → Byte
  | .movRegImm r _ => 0b10111#5 ++ r.toBits
  | .movRmReg _ _ => 0x89#8
  | .movRegRm _ _ => 0x8B#8
  | .addRmReg _ _ => 0x01#8
  | .addRegRm _ _ => 0x03#8
  | .addRmImm8 _ _ => 0x83#8
  | .subRmImm8 _ _ => 0x83#8
  | .incRm _ => 0xFF#8
  | .pushReg r => 0b01010#5 ++ r.toBits
  | .popReg r => 0b01011#5 ++ r.toBits
  | .pushImm8 _ => 0x6A#8
  | .pushImm32 _ => 0x68#8
  | .callRel32 _ => 0xE8#8
  | .ret => 0xC3#8
  | .leave => 0xC9#8
  | .jmpRel8 _ => 0xEB#8
  | .jmpRel32 _ => 0xE9#8

/-- The `reg` field of an instruction's ModRM byte: the second register operand, or the selector of
its group (R71, R76, R77); unused where the instruction has no ModRM byte. -/
def Instr.regField : Instr → BitVec 3
  | .movRmReg _ reg => reg.toBits
  | .movRegRm reg _ => reg.toBits
  | .addRmReg _ reg => reg.toBits
  | .addRegRm reg _ => reg.toBits
  | .addRmImm8 _ _ => 0#3
  | .subRmImm8 _ _ => 5#3
  | .incRm _ => 0#3
  | .movRegImm _ _ => 0#3
  | .pushReg _ => 0#3
  | .popReg _ => 0#3
  | .pushImm8 _ => 0#3
  | .pushImm32 _ => 0#3
  | .callRel32 _ => 0#3
  | .ret => 0#3
  | .leave => 0#3
  | .jmpRel8 _ => 0#3
  | .jmpRel32 _ => 0#3

/-- The immediate or relative bytes that end an instruction (R62, R73). -/
def Instr.immBytes : Instr → List Byte
  | .movRegImm _ imm => bytesOfWord imm
  | .addRmImm8 _ imm => [imm]
  | .subRmImm8 _ imm => [imm]
  | .pushImm8 imm => [imm]
  | .pushImm32 imm => bytesOfWord imm
  | .callRel32 rel => bytesOfWord rel
  | .jmpRel8 rel => [rel]
  | .jmpRel32 rel => bytesOfWord rel
  | .movRmReg _ _ => []
  | .movRegRm _ _ => []
  | .addRmReg _ _ => []
  | .addRegRm _ _ => []
  | .incRm _ => []
  | .pushReg _ => []
  | .popReg _ => []
  | .ret => []
  | .leave => []

/-- The ModRM byte of an instruction that has one. -/
def Instr.modrm? (i : Instr) : Option Byte :=
  i.rm?.map fun rm => modrmByte rm.modBits i.regField rm.rmBits

/-- The ModRM byte and displacement of an instruction, nothing where its format has none (R62). -/
def Instr.modrmBytes (i : Instr) : List Byte :=
  match i.rm? with
  | some rm => modrmByte rm.modBits i.regField rm.rmBits :: rm.dispBytes
  | none => []

/-- The encoder: opcode, ModRM byte, displacement, immediate (R60). -/
def encode (i : Instr) : List Byte := i.opcode :: (i.modrmBytes ++ i.immBytes)

/-- The length of an instruction in bytes (R74). -/
def Instr.length : Instr → Nat
  | .movRegImm _ _ => 5
  | .movRmReg rm _ => 1 + rm.len
  | .movRegRm _ rm => 1 + rm.len
  | .addRmReg rm _ => 1 + rm.len
  | .addRegRm _ rm => 1 + rm.len
  | .addRmImm8 rm _ => 2 + rm.len
  | .subRmImm8 rm _ => 2 + rm.len
  | .incRm rm => 1 + rm.len
  | .pushReg _ => 1
  | .popReg _ => 1
  | .pushImm8 _ => 2
  | .pushImm32 _ => 5
  | .callRel32 _ => 5
  | .ret => 1
  | .leave => 1
  | .jmpRel8 _ => 2
  | .jmpRel32 _ => 5

/-- The longest instruction, `83 /r` with a 32-bit displacement (R74). -/
def maxLength : Nat := 7

/-! ### The opcode table's words -/

/-- The low `n` bytes of a number, the most significant first. -/
def bytesHighFirst : Nat → Nat → List Byte
  | 0, _ => []
  | n + 1, w => BitVec.ofNat 8 (w / 256 ^ n) :: bytesHighFirst n w

/-- The low `n` bytes of a number, the least significant first. -/
def bytesLowFirst : Nat → Nat → List Byte
  | 0, _ => []
  | n + 1, w => BitVec.ofNat 8 w :: bytesLowFirst n (w / 256)

/-- The bytes, in memory order, of a word of spec/opcode_table.json. Its rows number a word with the
FIRST byte in the most significant position (R84); where that byte is no group opcode (only the group rows have two bytes)
the word is read with the first byte in bits 7..0 instead. DEDUCED, log 10. -/
def tableBytes (nbits w : Nat) : List Byte :=
  let n := (nbits + 7) / 8
  let high := bytesHighFirst n w
  if high.head? = some 0x83#8 ∨ high.head? = some 0xFF#8 then high else bytesLowFirst n w

/-- A table word's bytes with the bits above it zero, up to the longest instruction. -/
def tableWindow (nbits w : Nat) : List Byte :=
  tableBytes nbits w ++ List.replicate (maxLength - (nbits + 7) / 8) 0#8

/-- The instruction the decoder reads from a word of the opcode table. -/
def decodeTableWord (nbits w : Nat) : Option Instr :=
  match decode (tableWindow nbits w) with
  | .ok i => some i
  | .error _ => none

end Sys2Proof
end

