-- ==== Sys2Proof/Machine/State.lean ====
section
/-! DEFINITION. The machine's state as plain data (10_state.md), the reasons a step can stop, and the state after reset. -/

namespace Sys2Proof.Machine

/-- The register file (10_state.md R20, R21): eight 32-bit registers, none hard-wired, one home each. -/
structure Regs where
  eax : Word
  ecx : Word
  edx : Word
  ebx : Word
  esp : Word
  ebp : Word
  esi : Word
  edi : Word
  deriving DecidableEq, Repr

/-- `RUN_STATE` (R28). The register's fourth value is "reserved, never taken", and has no name here
(DEDUCED, log 17). -/
inductive RunState where
  | running   -- 0: a step request executes one instruction
  | stopped   -- 1: the host has stopped the core
  | faulted   -- 2: a fatal error occurred; only reset leaves this state
  deriving DecidableEq, Repr

/-- The fault registers (R29), read whole by the host. -/
structure FaultRegs where
  /-- `FAULT_KIND`, a code of 60_exceptions.md R200. -/
  kind : BitVec 8
  /-- `FAULT_PC`, the address of the failing instruction's opcode byte. -/
  pc : Word
  /-- `FAULT_OPCODE`. -/
  opcode : BitVec 8
  /-- `FAULT_MODRM`. -/
  modrm : BitVec 8
  /-- `FAULT_ADDR`, the first address of the access that failed. -/
  addr : Word
  /-- `FAULT_WIDTH`, 1 or 4. -/
  width : BitVec 3
  /-- `FAULT_ACCESS`: 0 fetch, 1 read, 2 write, 3 reserved. -/
  access : BitVec 2
  deriving DecidableEq, Repr

/-- Every fault register at its reset value (R29: "All reset to 0"). -/
def FaultRegs.none : FaultRegs := ⟨0#8, 0#32, 0#8, 0#8, 0#32, 0#3, 0#2⟩

/-- The memory `M` (20_memory.md R40): the bytes that differ from what an unlisted address reads as,
by address. `Memory.wf` of Machine/Memory.lean is its canonical form. -/
abbrev Memory := List Host.Cell

/-- The state of the core, with the parameters of R6 that a step reads and the model's own counter
of free draws. -/
structure State where
  /-- `x[0..7]` (R20). -/
  regs : Regs
  /-- `pc` (R24). -/
  pc : Word
  /-- `FLAGS` (R26), 32 bits with no defined fields. -/
  flags : Word
  /-- `M` (R31). -/
  mem : Memory
  /-- `RUN_STATE` (R28). -/
  runState : RunState
  /-- `FAULT_KIND` to `FAULT_ACCESS` (R29). -/
  fault : FaultRegs
  /-- `MEM_SIZE` and `FLAG_POLICY` (00_scope.md R6), constant through a machine's life (log 1, log 2). -/
  params : Params
  /-- The MODEL's own field, not the spec's: how many free values have been drawn (log 3). -/
  draws : Nat
  deriving DecidableEq, Repr

/-- What an access does with memory; `FAULT_ACCESS` records it (R29). -/
inductive Access where
  | fetch | read | write
  deriving DecidableEq, Repr

/-- The fatal errors a step can raise (60_exceptions.md R200). The spec describes the entry each one
takes (R207), so a raise becomes a NEXT state in which RUN_STATE is FAULTED and the fault registers hold
the report (log 6): `step` and `exec` never answer `Outcome.fault`. -/
inductive Fault where
  /-- R201: raised by the decoder for an opcode byte with no dispatch entry. Safe: the spec's own error, taken as R207 says. -/
  | unsupportedOpcode (op : BitVec 8)
  /-- R202: raised by the decoder for a selector of `83` or `FF` with no instruction. Safe: the spec's own error. -/
  | unsupportedGroupSelector (op modrm : BitVec 8)
  /-- R203: raised by the decoder, and by a meaning given a form the decoder rejects (log 8). Safe: the spec's own error. -/
  | unsupportedAddressing (op modrm : BitVec 8)
  /-- R204: raised by the bounds check of 20_memory.md R44, for a fetch, a read or a write. Safe: the spec's own error. -/
  | memoryOutOfRange (addr : Nat) (width : AccessWidth) (access : Access)
  deriving DecidableEq, Repr

/-- Reasons a step has no meaning. -/
inductive Refusal where
  /-- An instruction without a meaning yet, by its mnemonic; raised by no arm of `exec`. Safe. -/
  | notModelled (mnemonic : String)
  deriving DecidableEq, Repr

/-- The machine right after the reset of 70_reset_and_hazards.md R240. RUN_STATE and the fault registers
are the spec's values; everything else is an input of the loader (R35), here the start state of the
programs of 95_test_vectors.md section 3: `MEM_SIZE` 0x1000, ESP 0x800, every other register, `pc` and `FLAGS` 0,
memory with nothing listed. DESIGN CHOICE, log 1, log 4 and log 5; `preserve` is the spec's default policy, log 2. -/
def State.reset : State where
  regs := ⟨0#32, 0#32, 0#32, 0#32, 0x800#32, 0#32, 0#32, 0#32⟩
  pc := 0#32
  flags := 0#32
  mem := []
  runState := .running
  fault := FaultRegs.none
  params := ⟨0x1000, .preserve⟩
  draws := 0

end Sys2Proof.Machine
end

