-- ==== Sys2Proof/Machine/Memory.lean ====
section
/-! DEFINITION. The byte memory of 20_memory.md as a list in canonical form: one byte read, one byte written, little-endian 4-byte access built from them, and a loader's image. Bounds are checked in Machine/Ops.lean. -/

namespace Sys2Proof.Machine

/-- What an address with no cell reads as. The spec takes every byte from the loader's image (10_state.md R35,
91_not_in_source.md N13): any image is a list over this value, so the choice matters only to the memory of
`State.reset`. DESIGN CHOICE, log 5. -/
def Memory.unlisted : Byte := 0#8

/-- The canonical form: addresses strictly rising, no cell equal to what an unlisted address reads as. -/
def Memory.wf (m : Memory) : Bool :=
  decide (m.Pairwise fun c d => c.1 < d.1) && m.all fun c => c.2 != Memory.unlisted

/-- `M[a]` (20_memory.md R42 with n = 1). -/
def Memory.readByte : Memory → Nat → Byte
  | [], _ => Memory.unlisted
  | (k, b) :: m, a => if k = a then b else Memory.readByte m a

/-- A memory without its cell at `a`. -/
def Memory.erase (m : Memory) (a : Nat) : Memory := m.filter fun c => c.1 != a

/-- A memory with a cell put at its place in the order. -/
def Memory.insertCell : Memory → Nat → Byte → Memory
  | [], a, v => [(a, v)]
  | (k, b) :: m, a, v => if a < k then (a, v) :: (k, b) :: m else (k, b) :: Memory.insertCell m a v

/-- `M[a] <- v` (20_memory.md R43 with n = 1), keeping the canonical form. -/
def Memory.writeByte (m : Memory) (a : Nat) (v : Byte) : Memory :=
  if v = Memory.unlisted then m.erase a else (m.erase a).insertCell a v

/-- `M[a+3] || M[a+2] || M[a+1] || M[a]` (R42 with n = 4). -/
def Memory.readWord (m : Memory) (a : Nat) : Word :=
  wordOfBytes (m.readByte a) (m.readByte (a + 1)) (m.readByte (a + 2)) (m.readByte (a + 3))

/-- Bytes written at consecutive addresses from `a`. -/
def Memory.writeBytes (m : Memory) (a : Nat) : List Byte → Memory
  | [] => m
  | b :: bs => Memory.writeBytes (m.writeByte a b) (a + 1) bs

/-- The 4-byte write of R43: the least significant byte at the lowest address. -/
def Memory.writeWord (m : Memory) (a : Nat) (v : Word) : Memory := m.writeBytes a (bytesOfWord v)

/-- The memory a loader's image of bytes from address 0 on gives (R240, `INIT_MEM`). -/
def Memory.ofImage (image : List Byte) : Memory := Memory.writeBytes [] 0 image

end Sys2Proof.Machine
end

