-- ==== Sys2Proof/Machine/Ops.lean ====
section
/-! DEFINITION. The shared operations over registers and memory: register access, the bounds-checked memory primitives (20_memory.md), Push and Pop (42_stack_call.md), the fault entry (60_exceptions.md R207), and the transaction every instruction runs as (00_scope.md R9). -/

namespace Sys2Proof.Machine

/-! ### Registers (10_state.md R20, R23) -/

def Regs.get (x : Regs) : Reg → Word
  | .eax => x.eax
  | .ecx => x.ecx
  | .edx => x.edx
  | .ebx => x.ebx
  | .esp => x.esp
  | .ebp => x.ebp
  | .esi => x.esi
  | .edi => x.edi

def Regs.set (x : Regs) (r : Reg) (v : Word) : Regs :=
  match r with
  | .eax => { x with eax := v }
  | .ecx => { x with ecx := v }
  | .edx => { x with edx := v }
  | .ebx => { x with ebx := v }
  | .esp => { x with esp := v }
  | .ebp => { x with ebp := v }
  | .esi => { x with esi := v }
  | .edi => { x with edi := v }

/-- `x[i]` (00_scope.md R8). -/
def State.reg (s : State) (r : Reg) : Word := s.regs.get r

/-- `x[i] <- v` (R8). -/
def State.setReg (s : State) (r : Reg) (v : Word) : State := { s with regs := s.regs.set r v }

/-- `pc <- target` (R8). -/
def State.setPc (s : State) (target : Word) : State := { s with pc := target }

/-- `pc <- (pc + len) mod 2^32` (10_state.md R25). -/
def State.advance (s : State) (len : Nat) : State := s.setPc (s.pc + BitVec.ofNat 32 len)

/-! ### Memory primitives (20_memory.md R42 to R44) -/

/-- `M[a]`, without the bounds check. -/
def State.byteAt (s : State) (a : Nat) : Byte := s.mem.readByte a

/-- The little-endian word at `a`, without the bounds check. -/
def State.wordAt (s : State) (a : Nat) : Word := s.mem.readWord a

/-- The bounds check of R44, on unbounded integers. -/
def State.inRange (s : State) (a n : Nat) : Bool := decide (a + n ≤ s.params.memSize)

/-- `MemRead(a, 1)`. -/
def memRead8 (a : Nat) (s : State) : Except Fault Byte :=
  if s.inRange a 1 then .ok (s.byteAt a) else .error (.memoryOutOfRange a .byte .read)

/-- `MemRead(a, 4)`. -/
def memRead32 (a : Nat) (s : State) : Except Fault Word :=
  if s.inRange a 4 then .ok (s.wordAt a) else .error (.memoryOutOfRange a .dword .read)

/-- `MemWrite(a, 1, v)`: only the host interface issues it (R43). -/
def memWrite8 (a : Nat) (v : Byte) (s : State) : Except Fault State :=
  if s.inRange a 1 then .ok { s with mem := s.mem.writeByte a v }
  else .error (.memoryOutOfRange a .byte .write)

/-- `MemWrite(a, 4, v)`. -/
def memWrite32 (a : Nat) (v : Word) (s : State) : Except Fault State :=
  if s.inRange a 4 then .ok { s with mem := s.mem.writeWord a v }
  else .error (.memoryOutOfRange a .dword .write)

/-! ### The stack-pointer controller (42_stack_call.md R130, R131) -/

/-- `Push(v)`: the address is ESP - 4 modulo 2^32; ESP is written after the store. -/
def push (v : Word) (s : State) : Except Fault State := do
  let a := s.reg .esp - 4#32
  let t ← memWrite32 a.toNat v s
  return t.setReg .esp a

/-- `Pop()`: read at the current ESP, then increment (90_conflicts.md C1). -/
def pop (s : State) : Except Fault (Word × State) := do
  let a := s.reg .esp
  let v ← memRead32 a.toNat s
  return (v, s.setReg .esp (a + 4#32))

/-! ### The fault entry (60_exceptions.md R207) -/

/-- `RUN_STATE` as the host reads it (10_state.md R28). -/
def RunState.code : RunState → BitVec 2
  | .running => 0#2
  | .stopped => 1#2
  | .faulted => 2#2

/-- `FAULT_ACCESS` (R29). -/
def Access.code : Access → BitVec 2
  | .fetch => 0#2
  | .read => 1#2
  | .write => 2#2

/-- `FAULT_KIND` (R200). -/
def Fault.code : Fault → BitVec 8
  | .unsupportedOpcode _ => 1#8
  | .unsupportedGroupSelector _ _ => 2#8
  | .unsupportedAddressing _ _ => 3#8
  | .memoryOutOfRange _ _ _ => 4#8

/-- `FAULT_ADDR` of a failed access at `a`; a fetch address of 2^32 or more does not fit the register,
and the spec states no value for it: a free value (log 7). -/
def faultAddr (a draws : Nat) : Word :=
  if a < 2 ^ 32 then BitVec.ofNat 32 a else Config.freeFaultAddr draws

/-- How many free values a report draws. -/
def faultDraws : Fault → Nat
  | .memoryOutOfRange a _ _ => if a < 2 ^ 32 then 0 else 1
  | .unsupportedOpcode _ => 0
  | .unsupportedGroupSelector _ _ => 0
  | .unsupportedAddressing _ _ => 0

/-- The report of R29 and R200: `op` and `modrm` are the opcode and ModRM bytes the instruction had
already fetched; a field not valid for the kind is 0. -/
def faultReport (op modrm : Option Byte) (f : Fault) (s : State) : FaultRegs :=
  match f with
  | .unsupportedOpcode o =>
    { FaultRegs.none with kind := f.code, pc := s.pc, opcode := o }
  | .unsupportedGroupSelector o b =>
    { FaultRegs.none with kind := f.code, pc := s.pc, opcode := o, modrm := b }
  | .unsupportedAddressing o b =>
    { FaultRegs.none with kind := f.code, pc := s.pc, opcode := o, modrm := b }
  | .memoryOutOfRange a w c =>
    { kind := f.code, pc := s.pc, opcode := op.getD 0#8, modrm := modrm.getD 0#8,
      addr := faultAddr a s.draws, width := BitVec.ofNat 3 w.bytes, access := c.code }

/-- Taking a fatal error (R207), from the state before the failing instruction: the fault registers
and RUN_STATE are written, and no register, `pc`, `FLAGS` or memory byte. There is no return from a fault
but the host's reset (R208; `hostReset` in Machine/HostPort.lean). -/
def enterFault (op modrm : Option Byte) (f : Fault) (s : State) : State :=
  { s with
    runState := .faulted
    fault := faultReport op modrm f s
    draws := s.draws + faultDraws f }

/-- What `exec` and `step` answer. -/
abbrev Result := Host.Outcome State Fault Refusal

/-- One instruction as a transaction (R9): the working copy the body ends with becomes the state, or, if
it raised, the fault is entered from the state before the instruction. A form that R69 rejects raises
UnsupportedAddressing; the decoder never yields one (log 8). The bytes a report names are the
instruction's own opcode and ModRM bytes, all fetched before the body runs (log 16). -/
def transact (i : Instr) (s : State) (body : Except Fault State) : Result :=
  if i.wellFormed then
    match body with
    | .ok t => .next t
    | .error f => .next (enterFault (some i.opcode) i.modrm? f s)
  else
    .next (enterFault (some i.opcode) i.modrm?
      (.unsupportedAddressing i.opcode (i.modrm?.getD 0#8)) s)

/-! ### Fetching (30_encoding.md R61) -/

/-- At most `n` bytes of memory from address `a` on, as far as memory reaches. -/
def bytesFrom (s : State) (a : Nat) : Nat → List Byte
  | 0 => []
  | n + 1 => if s.inRange a 1 then s.byteAt a :: bytesFrom s (a + 1) n else []

/-- The bytes the fetch primitives can read at `pc + k`: the addresses are unbounded integers, so the
window ends where memory does. Reading more of it than the instruction needs is not observable (R48; log 9). -/
def fetchWindow (s : State) : List Byte := bytesFrom s s.pc.toNat maxLength

/-- The fault a decode error raises, with the opcode and ModRM bytes fetched by then (R81, R201 to R204). -/
def fetchFault (s : State) : DecodeError → State
  | .unsupportedOpcode op => enterFault (some op) none (.unsupportedOpcode op) s
  | .unsupportedGroupSelector op b => enterFault (some op) (some b) (.unsupportedGroupSelector op b) s
  | .unsupportedAddressing op b => enterFault (some op) (some b) (.unsupportedAddressing op b) s
  | .truncated offset width op modrm =>
    enterFault op modrm (.memoryOutOfRange (s.pc.toNat + offset) width .fetch) s

end Sys2Proof.Machine
end

