-- ==== Sys2Proof/Machine/Flags.lean ====
section
/-! DEFINITION. What ADD, SUB and INC do to FLAGS (10_state.md R27). The spec gives no other flag computation (90_conflicts.md C7). -/

namespace Sys2Proof.Machine

/-- "FLAGS per FLAG_POLICY" (R27, R111 to R115): unchanged under `preserve`, a free draw under `havoc` (log 3). -/
def aluFlags (s : State) : State :=
  match s.params.flagPolicy with
  | .preserve => s
  | .havoc => { s with flags := Config.freeFlags s.draws, draws := s.draws + 1 }

end Sys2Proof.Machine
end

