-- ==== Sys2Proof/Machine/Operands.lean ====
section
/-! DEFINITION. The ModRM operand accessors of 30_encoding.md R72 and the ALU operations of 41_arithmetic.md R110. -/

namespace Sys2Proof.Machine

/-- Where a decoded r/m operand lies: `M.kind` and `M.ea` of R70. -/
inductive Location where
  | reg (r : Reg)
  | mem (ea : Word)
  deriving DecidableEq, Repr

/-- The location of an r/m operand, from the registers before the instruction writes any: the effective
address is base plus sign-extended displacement modulo 2^32 (R65 to R68, R70). -/
def resolve (rm : RM) (s : State) : Location :=
  match rm with
  | .reg r => .reg r
  | .mem base => .mem (s.reg base)
  | .memDisp8 base d => .mem (s.reg base + sext32 d)
  | .memDisp32 base d => .mem (s.reg base + d)

/-- `RM32read` (`get_operand32`, R72). -/
def readLoc (loc : Location) (s : State) : Except Fault Word :=
  match loc with
  | .reg r => .ok (s.reg r)
  | .mem ea => memRead32 ea.toNat s

/-- `RM32write` (`set_operand32`, R72). -/
def writeLoc (loc : Location) (v : Word) (s : State) : Except Fault State :=
  match loc with
  | .reg r => .ok (s.setReg r v)
  | .mem ea => memWrite32 ea.toNat v s

/-- `add32(a, b) = (a + b) mod 2^32` (41_arithmetic.md R110). -/
def add32 (a b : Word) : Word := a + b

/-- `sub32(a, b) = (a - b) mod 2^32` (R110). -/
def sub32 (a b : Word) : Word := a - b

/-- `inc32(a) = (a + 1) mod 2^32` (R110). -/
def inc32 (a : Word) : Word := a + 1#32

end Sys2Proof.Machine
end

