-- ==== Sys2Proof/Machine/Arithmetic.lean ====
section
/-! DEFINITION. The ALU instructions (41_arithmetic.md R111 to R115). -/

namespace Sys2Proof.Machine

/-- The read-modify-write of an r/m operand that ADD r/m, SUB r/m and INC r/m share: read, combine, write back
at the same location, FLAGS, `pc` (R111, R113 to R115). -/
def modifyRm (rm : RM) (f : Word → Word) (len : Nat) (s : State) : Except Fault State := do
  let loc := resolve rm s
  let a ← readLoc loc s
  let t ← writeLoc loc (f a) s
  return (aluFlags t).advance len

/-- ADD r/m32, r32 (R111). -/
def execAddRmReg (rm : RM) (reg : Reg) (s : State) : Result :=
  let i := Instr.addRmReg rm reg
  transact i s (modifyRm rm (fun a => add32 a (s.reg reg)) i.length s)

/-- ADD r32, r/m32 (R112). -/
def execAddRegRm (reg : Reg) (rm : RM) (s : State) : Result :=
  let i := Instr.addRegRm reg rm
  transact i s do
    let a := s.reg reg
    let b ← readLoc (resolve rm s) s
    return (aluFlags (s.setReg reg (add32 a b))).advance i.length

/-- ADD r/m32, imm8 (R113). -/
def execAddRmImm8 (rm : RM) (imm : BitVec 8) (s : State) : Result :=
  let i := Instr.addRmImm8 rm imm
  transact i s (modifyRm rm (fun a => add32 a (sext32 imm)) i.length s)

/-- SUB r/m32, imm8 (R114). -/
def execSubRmImm8 (rm : RM) (imm : BitVec 8) (s : State) : Result :=
  let i := Instr.subRmImm8 rm imm
  transact i s (modifyRm rm (fun a => sub32 a (sext32 imm)) i.length s)

/-- INC r/m32 (R115). -/
def execIncRm (rm : RM) (s : State) : Result :=
  let i := Instr.incRm rm
  transact i s (modifyRm rm inc32 i.length s)

end Sys2Proof.Machine
end

