-- ==== Sys2Proof/Machine/DataMovement.lean ====
section
/-! DEFINITION. The data movement instructions (40_data_movement.md R100 to R102). -/

namespace Sys2Proof.Machine

/-- MOV r32, imm32 (R100). -/
def execMovRegImm (r : Reg) (imm : BitVec 32) (s : State) : Result :=
  let i := Instr.movRegImm r imm
  transact i s (.ok ((s.setReg r imm).advance i.length))

/-- MOV r/m32, r32 (R101). -/
def execMovRmReg (rm : RM) (reg : Reg) (s : State) : Result :=
  let i := Instr.movRmReg rm reg
  transact i s do
    let t ← writeLoc (resolve rm s) (s.reg reg) s
    return t.advance i.length

/-- MOV r32, r/m32 (R102). -/
def execMovRegRm (reg : Reg) (rm : RM) (s : State) : Result :=
  let i := Instr.movRegRm reg rm
  transact i s do
    let v ← readLoc (resolve rm s) s
    return (s.setReg reg v).advance i.length

end Sys2Proof.Machine
end

