-- ==== Sys2Proof/Machine/Jump.lean ====
section
/-! DEFINITION. The unconditional relative jumps (43_jump.md R150, R151). -/

namespace Sys2Proof.Machine

/-- A jump relative to the next instruction's address, modulo 2^32 (R152). -/
def jumpRelative (len : Nat) (rel : Word) (s : State) : State :=
  s.setPc (s.pc + BitVec.ofNat 32 len + rel)

/-- JMP rel8 (R150): the displacement is sign-extended. -/
def execJmpRel8 (rel : BitVec 8) (s : State) : Result :=
  let i := Instr.jmpRel8 rel
  transact i s (.ok (jumpRelative i.length (sext32 rel) s))

/-- JMP rel32 (R151). -/
def execJmpRel32 (rel : BitVec 32) (s : State) : Result :=
  let i := Instr.jmpRel32 rel
  transact i s (.ok (jumpRelative i.length rel s))

end Sys2Proof.Machine
end

