-- ==== Sys2Proof/Machine/Stack.lean ====
section
/-! DEFINITION. Push, pop, call, return and leave (42_stack_call.md R132 to R138). -/

namespace Sys2Proof.Machine

/-- PUSH r32 (R132): the value is read before ESP moves. -/
def execPushReg (r : Reg) (s : State) : Result :=
  let i := Instr.pushReg r
  transact i s do
    let t ← push (s.reg r) s
    return t.advance i.length

/-- POP r32 (R133): the write of `x[r]` comes after the increment inside Pop. -/
def execPopReg (r : Reg) (s : State) : Result :=
  let i := Instr.popReg r
  transact i s do
    let (v, t) ← pop s
    return (t.setReg r v).advance i.length

/-- PUSH imm8 (R134): sign-extended, 4 bytes pushed. -/
def execPushImm8 (imm : BitVec 8) (s : State) : Result :=
  let i := Instr.pushImm8 imm
  transact i s do
    let t ← push (sext32 imm) s
    return t.advance i.length

/-- PUSH imm32 (R135). -/
def execPushImm32 (imm : BitVec 32) (s : State) : Result :=
  let i := Instr.pushImm32 imm
  transact i s do
    let t ← push imm s
    return t.advance i.length

/-- CALL rel32 (R136): the link value is the address of the next instruction; the target is not checked. -/
def execCallRel32 (rel : BitVec 32) (s : State) : Result :=
  let i := Instr.callRel32 rel
  transact i s do
    let next := s.pc + BitVec.ofNat 32 i.length
    let t ← push next s
    return t.setPc (next + rel)

/-- RET (R137). -/
def execRet (s : State) : Result :=
  transact .ret s do
    let (v, t) ← pop s
    return t.setPc v

/-- LEAVE (R138): ESP <- EBP, then EBP <- Pop(). -/
def execLeave (s : State) : Result :=
  let i := Instr.leave
  transact i s do
    let (v, t) ← pop (s.setReg .esp (s.reg .ebp))
    return (t.setReg .ebp v).advance i.length

end Sys2Proof.Machine
end

