-- ==== Sys2Proof/Machine/Dispatch.lean ====
section
/-! DEFINITION. The meaning of every instruction, one arm per constructor of Instr. -/

namespace Sys2Proof.Machine

def exec (i : Instr) (s : State) : Host.Outcome State Fault Refusal :=
  match i with
  | .movRegImm r imm => Sys2Proof.Machine.execMovRegImm r imm s
  | .movRmReg rm reg => Sys2Proof.Machine.execMovRmReg rm reg s
  | .movRegRm reg rm => Sys2Proof.Machine.execMovRegRm reg rm s
  | .addRmReg rm reg => Sys2Proof.Machine.execAddRmReg rm reg s
  | .addRegRm reg rm => Sys2Proof.Machine.execAddRegRm reg rm s
  | .addRmImm8 rm imm => Sys2Proof.Machine.execAddRmImm8 rm imm s
  | .subRmImm8 rm imm => Sys2Proof.Machine.execSubRmImm8 rm imm s
  | .incRm rm => Sys2Proof.Machine.execIncRm rm s
  | .pushReg r => Sys2Proof.Machine.execPushReg r s
  | .popReg r => Sys2Proof.Machine.execPopReg r s
  | .pushImm8 imm => Sys2Proof.Machine.execPushImm8 imm s
  | .pushImm32 imm => Sys2Proof.Machine.execPushImm32 imm s
  | .callRel32 rel => Sys2Proof.Machine.execCallRel32 rel s
  | .ret => Sys2Proof.Machine.execRet s
  | .leave => Sys2Proof.Machine.execLeave s
  | .jmpRel8 rel => Sys2Proof.Machine.execJmpRel8 rel s
  | .jmpRel32 rel => Sys2Proof.Machine.execJmpRel32 rel s

end Sys2Proof.Machine
end

