-- ==== Sys2Proof/Machine/Step.lean ====
section
/-! DEFINITION. One step of the machine (30_encoding.md R83), and the placing of an instruction where the step fetches. -/

namespace Sys2Proof.Machine

/-- `Step()` (R83): when RUNNING, decode the bytes at `pc` and run the instruction, or enter the fault that
decoding raises (R207); otherwise "a step request changes nothing". -/
def step (s : State) : Host.Outcome State Fault Refusal :=
  match s.runState with
  | .running =>
    match decode (fetchWindow s) with
    | .ok i => exec i s
    | .error e => .next (fetchFault s e)
  | .stopped => .next s
  | .faulted => .next s

/-- `s` with the word's bytes stored at `pc`, and RUN_STATE RUNNING with no fault recorded, which a step needs to
fetch at all: the part of the loader's reset (R240) that places a program (log 11). `pc` must be at least
`maxLength` bytes below `MEM_SIZE`, as it is at reset. -/
def State.withFetchWord (s : State) (nbits w : Nat) : State :=
  { s with
    mem := s.mem.writeBytes s.pc.toNat (tableWindow nbits w)
    runState := .running
    fault := FaultRegs.none }

end Sys2Proof.Machine
end

