-- ==== Sys2Proof/Machine/HostPort.lean ====
section
/-! DEFINITION. The host interface of 60_exceptions.md R205 and R216 to R220 and 70_reset_and_hazards.md R240 and R242: reset with the loader's inputs, step requests, stop and resume, inspection, and the run loop under the host's stop policy. -/

namespace Sys2Proof.Machine

/-- The inputs of reset (R240): `INIT_REGS` (its ESP entry is replaced by `INIT_SP`, 92_eei_decisions.md D2),
`INIT_SP`, `INIT_PC`, `INIT_FLAGS`, and `INIT_MEM` as the bytes from address 0 on. -/
structure Init where
  regs : Regs
  sp : Word
  pc : Word
  flags : Word
  image : List Byte
  deriving DecidableEq, Repr

/-- The reset interaction (R240). `MEM_SIZE` and `FLAG_POLICY` are the machine's, not reset's; the count of free
draws goes on. R220 assumes an image of exactly `MEM_SIZE` bytes; of a longer one the rest is dropped, and
after a shorter one memory reads as unlisted (log 14). -/
def hostReset (init : Init) (s : State) : State :=
  { regs := init.regs.set .esp init.sp
    pc := init.pc
    flags := init.flags
    mem := Memory.ofImage (init.image.take s.params.memSize)
    runState := .running
    fault := FaultRegs.none
    params := s.params
    draws := s.draws }

/-- What the host may write (R216): a register by its number, `pc`, `FLAGS`, or 1 or 4 bytes of memory. -/
inductive Writable where
  | reg (index : Nat)
  | pc
  | flags
  | mem (a : Nat) (width : AccessWidth)
  deriving DecidableEq, Repr

/-- What the host may read (R216): all it may write, RUN_STATE, and the fault registers. -/
inductive Readable where
  | writable (l : Writable)
  | runState
  | faultKind | faultPc | faultOpcode | faultModrm | faultAddr | faultWidth | faultAccess
  deriving DecidableEq, Repr

/-- The host's interactions (R220). The read-only registers of R216 have no write request (log 13). -/
inductive HostRequest where
  | reset (init : Init)
  | step
  | stop
  | resume
  | read (l : Readable)
  | write (l : Writable) (v : Word)
  deriving DecidableEq, Repr

/-- What the host gets back (R220). -/
inductive HostReply where
  | nothing
  | ok
  | fault (report : FaultRegs)
  | notRunning
  | value (v : Word)
  /-- `RegisterIndexOutOfRange(i)` (R205), code 5 of R200, never recorded. -/
  | registerIndexOutOfRange (index : Nat)
  /-- `MemoryOutOfRange` refused to the host (R205). -/
  | memoryOutOfRange (a : Nat) (width : AccessWidth)
  deriving DecidableEq, Repr

/-- The register of an index in [0,8) (R205, R216). -/
def regOfIndex (index : Nat) : Option Reg :=
  if index < 8 then some (Reg.ofBits (BitVec.ofNat 3 index)) else none

/-- A read of a location the host may also write; a byte is zero-extended. -/
def readWritable (s : State) : Writable → HostReply
  | .reg index =>
    match regOfIndex index with
    | some r => .value (s.reg r)
    | none => .registerIndexOutOfRange index
  | .pc => .value s.pc
  | .flags => .value s.flags
  | .mem a .byte =>
    match memRead8 a s with
    | .ok b => .value (b.zeroExtend 32)
    | .error _ => .memoryOutOfRange a .byte
  | .mem a .dword =>
    match memRead32 a s with
    | .ok v => .value v
    | .error _ => .memoryOutOfRange a .dword

/-- Inspect read (R216): it changes nothing. -/
def hostRead (s : State) : Readable → HostReply
  | .writable l => readWritable s l
  | .runState => .value (s.runState.code.zeroExtend 32)
  | .faultKind => .value (s.fault.kind.zeroExtend 32)
  | .faultPc => .value s.fault.pc
  | .faultOpcode => .value (s.fault.opcode.zeroExtend 32)
  | .faultModrm => .value (s.fault.modrm.zeroExtend 32)
  | .faultAddr => .value s.fault.addr
  | .faultWidth => .value (s.fault.width.zeroExtend 32)
  | .faultAccess => .value (s.fault.access.zeroExtend 32)

/-- Inspect write (R216): exactly the location named changes; a refused access changes nothing and is not
recorded as a fault (R205). A 1-byte write takes `v[7:0]` (20_memory.md R43). -/
def hostWrite (s : State) (v : Word) : Writable → State × HostReply
  | .reg index =>
    match regOfIndex index with
    | some r => (s.setReg r v, .ok)
    | none => (s, .registerIndexOutOfRange index)
  | .pc => (s.setPc v, .ok)
  | .flags => ({ s with flags := v }, .ok)
  | .mem a .byte =>
    match memWrite8 a (byteOfWord v 0) s with
    | .ok t => (t, .ok)
    | .error _ => (s, .memoryOutOfRange a .byte)
  | .mem a .dword =>
    match memWrite32 a v s with
    | .ok t => (t, .ok)
    | .error _ => (s, .memoryOutOfRange a .dword)

/-- A step request (R83, R220): `ok`, or `fault` with the report, or `not running`. -/
def hostStep (s : State) : State × HostReply :=
  match s.runState with
  | .running =>
    match step s with
    | .next t =>
      match t.runState with
      | .faulted => (t, .fault t.fault)
      | .running => (t, .ok)
      | .stopped => (t, .ok)
    | .fault _ => (s, .notRunning)
    | .refused _ => (s, .notRunning)
  | .stopped => (s, .notRunning)
  | .faulted => (s, .notRunning)

/-- Stop (R217): from RUNNING only. -/
def hostStop (s : State) : State :=
  match s.runState with
  | .running => { s with runState := .stopped }
  | .stopped => s
  | .faulted => s

/-- Resume (R217): from STOPPED only; FAULTED is sticky (R208). -/
def hostResume (s : State) : State :=
  match s.runState with
  | .stopped => { s with runState := .running }
  | .running => s
  | .faulted => s

/-- One host interaction (R220). -/
def host (s : State) : HostRequest → State × HostReply
  | .reset init => (hostReset init s, .nothing)
  | .step => hostStep s
  | .stop => (hostStop s, .nothing)
  | .resume => (hostResume s, .nothing)
  | .read l => (s, hostRead s l)
  | .write l v => hostWrite s v l

/-- A sequence of host interactions. -/
def hostRun (s : State) : List HostRequest → State
  | [] => s
  | r :: rs => hostRun (host s r).1 rs

/-- How a run ended (70_reset_and_hazards.md R243): `faulted`, or `stopped`, which is the host not asking for another step
or having set STOPPED. `unfinished` is no end: the core is RUNNING, the host's policy says to go on, and the requests
allowed the loop are used up. -/
inductive RunEnd where
  | faulted | stopped | unfinished
  deriving DecidableEq, Repr

/-- The loop's test (R242), made before each step: how the run ends here, or nothing where RUNNING and
`host_continues()` hold. The policy sees how many steps were taken and the state (log 15). -/
def runEnd? (continues : Nat → State → Bool) (taken : Nat) (s : State) : Option RunEnd :=
  match s.runState with
  | .faulted => some .faulted
  | .stopped => some .stopped
  | .running => if continues taken s then none else some .stopped

/-- The run loop (R242): a step as long as the test allows one, at most `fuel` of them (log 15). A host that sets STOPPED
in the course of a run does so by `hostStop` between two loops. -/
def runLoop (continues : Nat → State → Bool) : Nat → Nat → State → State × RunEnd
  | fuel, taken, s =>
    match runEnd? continues taken s with
    | some e => (s, e)
    | none =>
      match fuel with
      | 0 => (s, .unfinished)
      | fuel + 1 => runLoop continues fuel (taken + 1) (hostStep s).1

/-- A diverging run (R243): "the host never stops it", and it does not fault, however many steps it makes. -/
def Diverges (continues : Nat → State → Bool) (s : State) : Prop :=
  ∀ fuel, (runLoop continues fuel 0 s).2 = .unfinished

end Sys2Proof.Machine
end

