-- ==== Sys2Proof/Safety.lean ====
section
/-! DEFINITION. What counts as a safe run, the invariant of the state, and the predicates the claims are stated in. -/

namespace Sys2Proof.Machine

/-! ### Runs -/

/-- A step that ends in the commit of an instruction (00_scope.md R9) rather than a fault entry. -/
def Commits (s t : State) : Prop :=
  s.runState = .running ∧ step s = .next t ∧ t.runState = .running

/-- A state from which `n` steps all commit: a run without a fatal error. -/
def SafeRun : Nat → State → Prop
  | 0, _ => True
  | n + 1, s => ∃ t, Commits s t ∧ SafeRun n t

/-- The boot requirements of 70_reset_and_hazards.md R241 that speak of the reset's inputs alone: the program's bytes
stand from `INIT_PC` on, and `INIT_SP` leaves room for `depth` bytes of stack. -/
def BootReady (program : List Byte) (depth memSize : Nat) (init : Init) : Prop :=
  (∀ k, (h : k < program.length) → init.image[init.pc.toNat + k]? = some program[k]) ∧
  depth ≤ init.sp.toNat ∧ init.sp.toNat ≤ memSize

/-! ### The invariant -/

/-- R40: `1 <= MEM_SIZE <= 2^32`. -/
def paramsLegal (p : Params) : Prop := 1 ≤ p.memSize ∧ p.memSize ≤ 2 ^ 32

/-- No byte lies outside the memory (R40, R41). -/
def Memory.within (m : Memory) (size : Nat) : Prop := ∀ c ∈ m, c.1 < size

/-- The fault registers hold a report of one of the four kinds with the fields not valid for it 0
(10_state.md R29, 60_exceptions.md R200). -/
def FaultRegs.legal (f : FaultRegs) : Prop :=
  (f.kind = 1#8 ∧ f.modrm = 0#8 ∧ f.addr = 0#32 ∧ f.width = 0#3 ∧ f.access = 0#2) ∨
  ((f.kind = 2#8 ∨ f.kind = 3#8) ∧ f.addr = 0#32 ∧ f.width = 0#3 ∧ f.access = 0#2) ∨
  (f.kind = 4#8 ∧ (f.width = 1#3 ∨ f.width = 4#3) ∧ f.access ≠ 3#2)

/-- RUN_STATE and the fault registers agree (R28, R29, R207): FAULTED with a report, otherwise no report. -/
def State.reportLegal (s : State) : Prop :=
  match s.runState with
  | .faulted => s.fault.legal
  | .running => s.fault = FaultRegs.none
  | .stopped => s.fault = FaultRegs.none

/-- The invariant: legal parameters, memory in canonical form and inside its capacity, and RUN_STATE in
agreement with the fault registers. -/
def Inv (s : State) : Prop :=
  paramsLegal s.params ∧ s.mem.wf = true ∧ s.mem.within s.params.memSize ∧ s.reportLegal

/-! ### Frames -/

/-- Every register but those listed keeps its value. -/
def RegsKeptBut (rs : List Reg) (s t : State) : Prop := ∀ r, r ∉ rs → t.reg r = s.reg r

/-- Every byte of memory keeps its value. -/
def MemKept (s t : State) : Prop := ∀ a, t.byteAt a = s.byteAt a

/-- Every byte of memory but the four from `a` on keeps its value. -/
def MemKeptBut (a : Nat) (s t : State) : Prop :=
  ∀ b, b < a ∨ a + 4 ≤ b → t.byteAt b = s.byteAt b

/-- RUN_STATE, the fault registers and the parameters keep their values. -/
def ControlKept (s t : State) : Prop :=
  t.runState = s.runState ∧ t.fault = s.fault ∧ t.params = s.params

/-- The flags rule of ADD, SUB and INC (R27): unchanged under `preserve`; under `havoc` the next free value. -/
def FlagsByPolicy (s t : State) : Prop :=
  (s.params.flagPolicy = .preserve → t.flags = s.flags) ∧
  (s.params.flagPolicy = .havoc → t.flags = Config.freeFlags s.draws)

/-- A result of `exec` or `step` that is the fault entry of R207 with the given report: the fault registers and
RUN_STATE are written and no register, `pc`, `FLAGS`, memory byte or parameter is. -/
def FaultsWith (s : State) (report : FaultRegs) (result : Result) : Prop :=
  ∃ t, result = .next t ∧ t.runState = .faulted ∧ t.fault = report ∧
    t.regs = s.regs ∧ t.pc = s.pc ∧ t.flags = s.flags ∧ t.mem = s.mem ∧ t.params = s.params

/-- The report of a failed data access of an instruction (R29, R200 kind 4): its own opcode and ModRM bytes, the
address, width 4, and the access kind. -/
def accessReport (i : Instr) (s : State) (a : Word) (access : Access) : FaultRegs :=
  ⟨4#8, s.pc, i.opcode, i.modrm?.getD 0#8, a, 4#3, access.code⟩

/-- The report of a failed fetch of `width` bytes at `pc + offset` (R200 kind 4), with the opcode and ModRM bytes
fetched by then, 0 where none was. -/
def fetchReport (s : State) (opcode modrm : Byte) (offset : Nat) (width : AccessWidth) : FaultRegs :=
  ⟨4#8, s.pc, opcode, modrm, faultAddr (s.pc.toNat + offset) s.draws, BitVec.ofNat 3 width.bytes, 0#2⟩

/-- Memory holds the bytes `bs` from `pc` on, inside its capacity. -/
def CodeAt (s : State) (bs : List Byte) : Prop :=
  s.pc.toNat + bs.length ≤ s.params.memSize ∧
  ∀ k, (h : k < bs.length) → s.byteAt (s.pc.toNat + k) = bs[k]

/-! ### What each instruction writes, by the spec's tables -/

/-- The register an r/m destination is, if it is one. -/
def rmRegs : RM → List Reg
  | .reg r => [r]
  | .mem _ => []
  | .memDisp8 _ _ => []
  | .memDisp32 _ _ => []

/-- The registers each instruction writes: the table of 10_state.md R23. -/
def writtenRegs : Instr → List Reg
  | .movRegImm r _ => [r]
  | .movRmReg rm _ => rmRegs rm
  | .movRegRm reg _ => [reg]
  | .addRmReg rm _ => rmRegs rm
  | .addRegRm reg _ => [reg]
  | .addRmImm8 rm _ => rmRegs rm
  | .subRmImm8 rm _ => rmRegs rm
  | .incRm rm => rmRegs rm
  | .pushReg _ => [.esp]
  | .popReg r => [.esp, r]
  | .pushImm8 _ => [.esp]
  | .pushImm32 _ => [.esp]
  | .callRel32 _ => [.esp]
  | .ret => [.esp]
  | .leave => [.esp, .ebp]
  | .jmpRel8 _ => []
  | .jmpRel32 _ => []

/-- The effective address of an r/m destination, if it lies in memory. -/
def rmAddress (rm : RM) (s : State) : Option Word :=
  match resolve rm s with
  | .reg _ => none
  | .mem a => some a

/-- The address of the 4 bytes an instruction stores, if it stores: the r/m destination in memory
(R101, R111, R113 to R115), or ESP - 4 for a push (R130). -/
def storedAt (i : Instr) (s : State) : Option Word :=
  match i with
  | .movRmReg rm _ => rmAddress rm s
  | .addRmReg rm _ => rmAddress rm s
  | .addRmImm8 rm _ => rmAddress rm s
  | .subRmImm8 rm _ => rmAddress rm s
  | .incRm rm => rmAddress rm s
  | .pushReg _ => some (s.reg .esp - 4#32)
  | .pushImm8 _ => some (s.reg .esp - 4#32)
  | .pushImm32 _ => some (s.reg .esp - 4#32)
  | .callRel32 _ => some (s.reg .esp - 4#32)
  | .movRegImm _ _ => none
  | .movRegRm _ _ => none
  | .addRegRm _ _ => none
  | .popReg _ => none
  | .ret => none
  | .leave => none
  | .jmpRel8 _ => none
  | .jmpRel32 _ => none

/-- The `pc` an instruction commits: the cases of R25, with R136, R137, R150 and R151. -/
def nextPc (i : Instr) (s : State) : Word :=
  match i with
  | .callRel32 rel => s.pc + 5#32 + rel
  | .ret => s.wordAt (s.reg .esp).toNat
  | .jmpRel8 rel => s.pc + 2#32 + sext32 rel
  | .jmpRel32 rel => s.pc + 5#32 + rel
  | .movRegImm _ _ => s.pc + 5#32
  | .movRmReg rm _ => s.pc + BitVec.ofNat 32 (1 + rm.len)
  | .movRegRm _ rm => s.pc + BitVec.ofNat 32 (1 + rm.len)
  | .addRmReg rm _ => s.pc + BitVec.ofNat 32 (1 + rm.len)
  | .addRegRm _ rm => s.pc + BitVec.ofNat 32 (1 + rm.len)
  | .addRmImm8 rm _ => s.pc + BitVec.ofNat 32 (2 + rm.len)
  | .subRmImm8 rm _ => s.pc + BitVec.ofNat 32 (2 + rm.len)
  | .incRm rm => s.pc + BitVec.ofNat 32 (1 + rm.len)
  | .pushReg _ => s.pc + 1#32
  | .popReg _ => s.pc + 1#32
  | .pushImm8 _ => s.pc + 2#32
  | .pushImm32 _ => s.pc + 5#32
  | .leave => s.pc + 1#32

/-- ADD, SUB and INC (41_arithmetic.md R111 to R115), the instructions `havoc` lets write `FLAGS`. -/
def isAlu : Instr → Bool
  | .addRmReg _ _ => true
  | .addRegRm _ _ => true
  | .addRmImm8 _ _ => true
  | .subRmImm8 _ _ => true
  | .incRm _ => true
  | .movRegImm _ _ => false
  | .movRmReg _ _ => false
  | .movRegRm _ _ => false
  | .pushReg _ => false
  | .popReg _ => false
  | .pushImm8 _ => false
  | .pushImm32 _ => false
  | .callRel32 _ => false
  | .ret => false
  | .leave => false
  | .jmpRel8 _ => false
  | .jmpRel32 _ => false

/-! ### The contracts that several instructions share -/

/-- A commit that leaves `FLAGS` (under either policy), RUN_STATE, the fault registers and the parameters, and ends at
the given `pc`. -/
def PlainCommit (s t : State) (pc : Word) : Prop := t.pc = pc ∧ t.flags = s.flags ∧ ControlKept s t

/-- A read-modify-write of an r/m operand (R111, R113 to R115): `f` of the old value is written back where it was
read; nothing else but `FLAGS` (by the policy) and `pc` changes; an operand outside memory raises the READ's error. -/
def UpdatesRm (i : Instr) (rm : RM) (f : Word → Word) (len : Nat) (s : State) : Prop :=
  (∀ r, resolve rm s = .reg r →
    ∃ t, exec i s = .next t ∧ t.reg r = f (s.reg r) ∧ RegsKeptBut [r] s t ∧ MemKept s t ∧
      FlagsByPolicy s t ∧ ControlKept s t ∧ t.pc = s.pc + BitVec.ofNat 32 len) ∧
  (∀ a, resolve rm s = .mem a → a.toNat + 4 ≤ s.params.memSize →
    ∃ t, exec i s = .next t ∧ t.wordAt a.toNat = f (s.wordAt a.toNat) ∧ MemKeptBut a.toNat s t ∧
      RegsKeptBut [] s t ∧ FlagsByPolicy s t ∧ ControlKept s t ∧ t.pc = s.pc + BitVec.ofNat 32 len) ∧
  (∀ a, resolve rm s = .mem a → s.params.memSize < a.toNat + 4 →
    FaultsWith s (accessReport i s a .read) (exec i s))

/-- A push of `v` (R130) by an instruction that ends at `pc`: ESP - 4 modulo 2^32 is the address of the four bytes
and the new ESP; outside memory the WRITE's error is raised. -/
def Pushes (i : Instr) (v pc : Word) (s : State) : Prop :=
  let a := s.reg .esp - 4#32
  (a.toNat + 4 ≤ s.params.memSize →
    ∃ t, exec i s = .next t ∧ t.reg .esp = a ∧ t.wordAt a.toNat = v ∧ RegsKeptBut [.esp] s t ∧
      MemKeptBut a.toNat s t ∧ PlainCommit s t pc) ∧
  (s.params.memSize < a.toNat + 4 → FaultsWith s (accessReport i s a .write) (exec i s))

/-- A field of `width` bytes at `pc + offset`, after the bytes `before` that memory holds from `pc` on, does not fit
memory: the step raises the FETCH's error (30_encoding.md R81, checks 5 and 7). -/
def FieldFetchFaults (s : State) (before : List Byte) (modrm : Byte) (width : AccessWidth) : Prop :=
  s.runState = .running → CodeAt s before →
    s.params.memSize < s.pc.toNat + before.length + width.bytes →
    FaultsWith s (fetchReport s (before.headD 0#8) modrm before.length width) (step s)

/-- The opcode fetch at a `pc` outside memory raises the FETCH's error, with no opcode recorded (R29, R81 check 1). -/
def OpcodeFetchFaults (s : State) : Prop :=
  s.runState = .running → s.params.memSize ≤ s.pc.toNat →
    FaultsWith s ⟨4#8, s.pc, 0#8, 0#8, s.pc, 1#3, 0#2⟩ (step s)

/-- The fetch, as offset from `pc` and width, that reads byte `n` of an opcode, ModRM byte and displacement: 1 byte each,
but for the 4 bytes of a 32-bit displacement, fetched at once (R70; R81, checks 1, 3 and 5). -/
def rmFetch (rm : RM) (n : Nat) : Nat × AccessWidth :=
  if n = 0 then (0, .byte)
  else if n = 1 then (1, .byte)
  else match rm with
    | .memDisp32 _ _ => (2, .dword)
    | .memDisp8 _ _ => (2, .byte)
    | .mem _ => (2, .byte)
    | .reg _ => (2, .byte)

/-- The fetch that reads byte `n` of an instruction: those of `rmFetch`, then the 1-byte immediate of a ModRM format (R62);
without a ModRM byte, the opcode, then the immediate or relative field at `pc + 1`, 4 bytes in the formats of length 5 and 1
byte otherwise (R73; R81, check 7). -/
def fieldFetch (i : Instr) (n : Nat) : Nat × AccessWidth :=
  match i.rm? with
  | some rm => if n < 1 + rm.len then rmFetch rm n else (1 + rm.len, .byte)
  | none => if n = 0 then (0, .byte) else (1, if i.length = 5 then .dword else .byte)

/-- An instruction of which memory holds the first `n` bytes from `pc` on and ends there raises a FETCH's error: the failing
access is the fetch that reads the first missing byte, at its own first address and width, and the opcode and ModRM bytes
reported are those fetched by then (R44, R70, R81). -/
def CutOffFaults (i : Instr) (s : State) : Prop :=
  s.runState = .running → ∀ n, n < i.length → CodeAt s ((encode i).take n) →
    s.pc.toNat + n = s.params.memSize →
    FaultsWith s
      (fetchReport s (if n = 0 then 0#8 else i.opcode) (if n ≤ 1 then 0#8 else i.modrm?.getD 0#8)
        (fieldFetch i n).1 (fieldFetch i n).2)
      (step s)

/-- The ModRM forms of R69. -/
def RejectedModrm (b : Byte) : Prop := (modOf b ≠ 3#2 ∧ rmOf b = 4#3) ∨ (modOf b = 0#2 ∧ rmOf b = 5#3)

/-- The decode errors of R81 for an opcode with a ModRM byte: the bytes are cut off by the end of memory, or the form is one
R69 rejects. -/
def DecodeErrorsFault (i : Instr) (s : State) : Prop :=
  CutOffFaults i s ∧
  (s.runState = .running → ∀ b, RejectedModrm b → CodeAt s [i.opcode, b] →
    FaultsWith s ⟨3#8, s.pc, i.opcode, b, 0#32, 0#3, 0#2⟩ (step s))

end Sys2Proof.Machine
end

