-- ==== Sys2Proof/Certificates/Slice0/Obligations.lean ====
section
/-! DEFINITION. The statements about this machine. Each docstring names the rules of spec/ it formalises. -/

open Sys2Proof Sys2Proof.Machine

/-! ### Encoding -/

/-- Decode and encode agree, on every well-formed instruction with every operand value, whatever bytes follow
(30_encoding.md R60 to R77). -/
def Obligations.DecodeOfEncodeIsTheInstruction : Prop :=
  ∀ (i : Instr) (rest : List Byte), i.wellFormed = true → decode (encode i ++ rest) = .ok i

/-- What the decoder accepts is well formed, and the bytes it read are exactly that instruction's encoding: no two
encodings of one instruction, and nothing of an encoding is dropped. -/
def Obligations.EncodeOfDecodeIsTheBytesRead : Prop :=
  ∀ (bs : List Byte) (i : Instr), decode bs = .ok i →
    i.wellFormed = true ∧ bs.take i.length = encode i ∧ (encode i).length = i.length

/-- The length table of R74, from the opcode byte and the `mod` field of the byte after it. -/
def documentedLength (op modrm : Byte) : Nat :=
  let mlen := if modOf modrm = 1#2 then 2 else if modOf modrm = 2#2 then 5 else 1
  if op ∈ [0xC3#8, 0xC9#8] ∨ (0x50#8 ≤ op ∧ op ≤ 0x5F#8) then 1
  else if op ∈ [0x6A#8, 0xEB#8] then 2
  else if op ∈ [0x68#8, 0xE8#8, 0xE9#8] ∨ (0xB8#8 ≤ op ∧ op ≤ 0xBF#8) then 5
  else if op = 0x83#8 then 2 + mlen
  else 1 + mlen

/-- R74: the length is fixed by the opcode and, for ModRM forms, by `M.len`. -/
def Obligations.LengthIsFixedByOpcodeAndMod : Prop :=
  ∀ (op : Byte) (rest : List Byte) (i : Instr), decode (op :: rest) = .ok i →
    i.length = documentedLength op (rest.headD 0#8)

/-- The 37 mapped opcode bytes of R75. -/
def mappedOpcodes : List Byte :=
  [0x01#8, 0x03#8, 0x50#8, 0x51#8, 0x52#8, 0x53#8, 0x54#8, 0x55#8, 0x56#8, 0x57#8, 0x58#8, 0x59#8,
   0x5A#8, 0x5B#8, 0x5C#8, 0x5D#8, 0x5E#8, 0x5F#8, 0x68#8, 0x6A#8] ++
  [0x83#8, 0x89#8, 0x8B#8, 0xB8#8, 0xB9#8, 0xBA#8, 0xBB#8, 0xBC#8, 0xBD#8, 0xBE#8, 0xBF#8,
   0xC3#8, 0xC9#8, 0xE8#8, 0xE9#8, 0xEB#8, 0xFF#8]

/-- R78: every opcode byte not listed in R75 is rejected by name, whatever follows it; a listed one never is. -/
def Obligations.UnmappedOpcodesAreRejectedByName : Prop :=
  ∀ (op : Byte) (rest : List Byte),
    (op ∉ mappedOpcodes → decode (op :: rest) = .error (.unsupportedOpcode op)) ∧
    (op ∈ mappedOpcodes → ∀ o, decode (op :: rest) ≠ .error (.unsupportedOpcode o))

/-- R65 to R69: what each `mod` makes of the operand, how many bytes the parser consumes, and the forms it rejects before
any displacement byte. -/
def Obligations.ModrmOperandIsRegisterOrBasePlusDisplacement : Prop :=
  ∀ (op b : Byte) (rest : List Byte) (s : State),
    let x := Reg.ofBits (rmOf b)
    (modOf b = 3#2 →
      ∃ m, decodeModRM op (b :: rest) = .ok m ∧ resolve m.rm s = .reg x ∧ m.len = 1 ∧ m.rest = rest) ∧
    (modOf b = 0#2 → rmOf b ≠ 4#3 → rmOf b ≠ 5#3 →
      ∃ m, decodeModRM op (b :: rest) = .ok m ∧ resolve m.rm s = .mem (s.reg x) ∧ m.len = 1 ∧ m.rest = rest) ∧
    (∀ d8, modOf b = 1#2 → rmOf b ≠ 4#3 →
      ∃ m, decodeModRM op (b :: d8 :: rest) = .ok m ∧ resolve m.rm s = .mem (s.reg x + d8.signExtend 32) ∧
        m.len = 2 ∧ m.rest = rest) ∧
    (∀ d0 d1 d2 d3, modOf b = 2#2 → rmOf b ≠ 4#3 →
      ∃ m, decodeModRM op (b :: d0 :: d1 :: d2 :: d3 :: rest) = .ok m ∧
        resolve m.rm s = .mem (s.reg x + (d3 ++ d2 ++ d1 ++ d0)) ∧ m.len = 5 ∧ m.rest = rest) ∧
    (RejectedModrm b → decodeModRM op (b :: rest) = .error (.unsupportedAddressing op b))

/-- R76 and R77: the selectors of the groups `83` and `FF`; a bad selector is reported before any immediate byte is
fetched (R81, checks 6 and 7). -/
def Obligations.GroupSelectorsChooseTheInstruction : Prop :=
  ∀ (rm : RM) (sel : BitVec 3) (rest : List Byte), rm.wellFormed = true →
    let b := modrmByte rm.modBits sel rm.rmBits
    (∀ imm, sel = 0#3 → decode (0x83#8 :: b :: (rm.dispBytes ++ imm :: rest)) = .ok (.addRmImm8 rm imm)) ∧
    (∀ imm, sel = 5#3 → decode (0x83#8 :: b :: (rm.dispBytes ++ imm :: rest)) = .ok (.subRmImm8 rm imm)) ∧
    (sel ≠ 0#3 → sel ≠ 5#3 →
      decode (0x83#8 :: b :: (rm.dispBytes ++ rest)) = .error (.unsupportedGroupSelector 0x83#8 b)) ∧
    (sel = 0#3 → decode (0xFF#8 :: b :: (rm.dispBytes ++ rest)) = .ok (.incRm rm)) ∧
    (sel ≠ 0#3 →
      decode (0xFF#8 :: b :: (rm.dispBytes ++ rest)) = .error (.unsupportedGroupSelector 0xFF#8 b))

/-- Words of 95_test_vectors.md, one of each family, decode to the instruction the spec names. -/
def Obligations.VectorWordsDecode : Prop :=
  decode [0xB8#8, 0x04#8, 0x00#8, 0x00#8, 0x00#8] = .ok (.movRegImm .eax 4#32) ∧
  decode [0x8B#8, 0x45#8, 0xFC#8] = .ok (.movRegRm .eax (.memDisp8 .ebp 0xFC#8)) ∧
  decode [0x03#8, 0xD1#8] = .ok (.addRegRm .edx (.reg .ecx)) ∧
  decode [0x83#8, 0xEC#8, 0x10#8] = .ok (.subRmImm8 (.reg .esp) 0x10#8) ∧
  decode [0x59#8] = .ok (.popReg .ecx) ∧
  decode [0xE8#8, 0xFB#8, 0xFF#8, 0xFF#8, 0xFF#8] = .ok (.callRel32 0xFFFFFFFB#32) ∧
  decode [0xEB#8, 0xFE#8] = .ok (.jmpRel8 0xFE#8) ∧
  decode [0x8B#8, 0x04#8, 0x24#8] = .error (.unsupportedAddressing 0x8B#8 0x04#8)

/-! ### The step -/

/-- R83: when RUNNING and the bytes at `pc` decode to an instruction, a step is exactly exec of it in that state;
the step adds nothing around exec. -/
def Obligations.StepRunsTheDecodedInstruction : Prop :=
  ∀ (s : State) (i : Instr), s.runState = .running → decode (fetchWindow s) = .ok i → step s = exec i s

/-- When memory holds the encoding of a well-formed instruction at `pc`, inside its capacity, a step executes that
instruction: encoding, fetching and decoding together (R60, R61, R83). -/
def Obligations.EncodedInstructionAtPcIsExecuted : Prop :=
  ∀ (s : State) (i : Instr), i.wellFormed = true → s.runState = .running → CodeAt s (encode i) →
    step s = exec i s

/-- R83, R220: a step request when not RUNNING changes nothing, and the host is told so. -/
def Obligations.StepRequestWhenNotRunningChangesNothing : Prop :=
  ∀ s : State, s.runState ≠ .running → step s = .next s ∧ host s .step = (s, .notRunning)

/-- No instruction and no error is beyond the model: every step answers a next state. -/
def Obligations.StepAlwaysAnswersANextState : Prop := ∀ s : State, ∃ t, step s = .next t

/-- R152: a `pc` at or beyond `MEM_SIZE` faults at the opcode fetch, with no opcode recorded (R29). -/
def Obligations.OpcodeFetchOutsideMemoryFaults : Prop :=
  ∀ s : State, OpcodeFetchFaults s

/-- R201: an UNMAPPED opcode byte at `pc` faults, naming the byte and `pc`; nothing else changes. -/
def Obligations.UnsupportedOpcodeFaults : Prop :=
  ∀ s : State, s.runState = .running → s.pc.toNat < s.params.memSize →
    s.byteAt s.pc.toNat ∉ mappedOpcodes →
    FaultsWith s ⟨1#8, s.pc, s.byteAt s.pc.toNat, 0#8, 0#32, 0#3, 0#2⟩ (step s)

/-- R202: a group byte with a selector that has no instruction faults, naming opcode and ModRM byte, once its
displacement is in memory; where memory ends before that, the fetch that is cut off faults instead (R81, checks 1, 3 and 5
before check 6). -/
def Obligations.UnsupportedGroupSelectorFaults : Prop :=
  ∀ (s : State) (op : Byte) (rm : RM) (sel : BitVec 3), s.runState = .running → rm.wellFormed = true →
    (op = 0x83#8 ∧ sel ≠ 0#3 ∧ sel ≠ 5#3) ∨ (op = 0xFF#8 ∧ sel ≠ 0#3) →
    let b := modrmByte rm.modBits sel rm.rmBits
    let bytes := op :: b :: rm.dispBytes
    (CodeAt s bytes → FaultsWith s ⟨2#8, s.pc, op, b, 0#32, 0#3, 0#2⟩ (step s)) ∧
    (∀ n, n < 1 + rm.len → CodeAt s (bytes.take n) → s.pc.toNat + n = s.params.memSize →
      FaultsWith s
        (fetchReport s (if n = 0 then 0#8 else op) (if n ≤ 1 then 0#8 else b) (rmFetch rm n).1 (rmFetch rm n).2)
        (step s))

/-- R69, R203: every ModRM opcode, whatever the `reg` field, with one of the two rejected forms faults, naming opcode and
ModRM byte, whatever follows them in memory and before any displacement byte is needed. -/
def Obligations.UnsupportedAddressingFaults : Prop :=
  ∀ (s : State) (op b : Byte), s.runState = .running →
    op ∈ [0x01#8, 0x03#8, 0x89#8, 0x8B#8, 0x83#8, 0xFF#8] →
    RejectedModrm b →
    CodeAt s [op, b] →
    FaultsWith s ⟨3#8, s.pc, op, b, 0#32, 0#3, 0#2⟩ (step s)

/-- R206, R207: a step that ends in a fault changes no register, `pc`, `FLAGS` or memory byte, records `pc` and a legal
report (R29: fields not valid for the kind are 0), and tells the host. -/
def Obligations.FaultEntryIsPrecise : Prop :=
  ∀ s t : State, s.runState = .running → step s = .next t → t.runState = .faulted →
    t.regs = s.regs ∧ t.pc = s.pc ∧ t.flags = s.flags ∧ t.mem = s.mem ∧ t.params = s.params ∧
    t.fault.pc = s.pc ∧ t.fault.legal ∧ host s .step = (t, .fault t.fault)

/-- R208: FAULTED is sticky. A step request does nothing, and no sequence of host requests without a reset leaves FAULTED or
clears the report. -/
def Obligations.FaultedIsStickyUntilReset : Prop :=
  ∀ (s : State) (rs : List HostRequest), s.runState = .faulted → (∀ r ∈ rs, ∀ init, r ≠ .reset init) →
    host s .step = (s, .notRunning) ∧ (hostRun s rs).runState = .faulted ∧ (hostRun s rs).fault = s.fault

/-- R29: only the fault entry and reset write the fault registers. -/
def Obligations.OnlyFaultEntryAndResetWriteTheFaultRegisters : Prop :=
  ∀ (s : State) (r : HostRequest), (host s r).1.fault ≠ s.fault →
    (∃ init, r = .reset init ∧ (host s r).1.fault = FaultRegs.none) ∨
    (r = .step ∧ s.runState = .running ∧ (host s r).1.runState = .faulted)

/-! ### Invariants -/

/-- Every step keeps the invariant: legal parameters, memory in canonical form and within its capacity, RUN_STATE in
agreement with the fault registers. -/
def Obligations.StepKeepsTheStateLegal : Prop := ∀ s t : State, Inv s → step s = .next t → Inv t

/-- The invariant holds right after reset; the reset values of the registers and of memory are the model's choice
(log 1, log 4, log 5), RUN_STATE and the fault registers the spec's (R240). -/
def Obligations.ResetStateIsLegal : Prop :=
  Inv State.reset ∧ State.reset.runState = .running ∧ State.reset.fault = FaultRegs.none

/-- Every host interaction keeps the invariant, reset included. R220 assumes an image of exactly `MEM_SIZE` bytes; that a
longer one is cut and a shorter one leaves the rest unlisted is the model's choice (log 14), and the invariant holds after
those too. -/
def Obligations.HostRequestsKeepTheStateLegal : Prop := ∀ (s : State) (r : HostRequest), Inv s → Inv (host s r).1

/-- R40: the capacity never changes after construction; nor does the flag policy. -/
def Obligations.ParametersNeverChange : Prop :=
  ∀ (s : State) (rs : List HostRequest), (hostRun s rs).params = s.params

/-! ### Frames of all instructions -/

/-- R23: an instruction writes no register but those the table gives it; a memory write reaches no register. -/
def Obligations.RegistersWrittenAreThoseOfTheTable : Prop :=
  (∀ (i : Instr) (s t : State), exec i s = .next t → RegsKeptBut (writtenRegs i) s t) ∧
  (∀ (s t : State) (a : Nat) (v : Word), memWrite32 a v s = .ok t → t.regs = s.regs)

/-- The memory frame of every instruction: where it stores, the address is the one `storedAt` computes in the state
before it, and every byte outside those four is kept; where it stores nothing, every byte is kept. -/
def Obligations.MemoryIsKeptOutsideTheStoredWord : Prop :=
  ∀ (i : Instr) (s t : State), exec i s = .next t →
    (∀ a, storedAt i s = some a → MemKeptBut a.toNat s t) ∧ (storedAt i s = none → MemKept s t)

/-- R25: what every instruction leaves in `pc`, when it commits and when it raises; a `pc` at or beyond `MEM_SIZE` is
accepted, and the next fetch from it raises. -/
def Obligations.ProgramCounterAfterEachInstruction : Prop :=
  ∀ (i : Instr) (s t : State), s.runState = .running → exec i s = .next t →
    (t.runState = .running → t.pc = nextPc i s ∧ OpcodeFetchFaults t) ∧ (t.runState ≠ .running → t.pc = s.pc)

/-- R27: `FLAGS` under both policies. Under `havoc` the value is a free one, of which nothing is known (log 3 is its form). -/
def Obligations.FlagsFollowThePolicy : Prop :=
  ∀ (i : Instr) (s t : State), s.runState = .running → exec i s = .next t →
    (s.params.flagPolicy = .preserve → t.flags = s.flags) ∧
    (isAlu i = false → t.flags = s.flags) ∧
    (s.params.flagPolicy = .havoc → isAlu i = true → t.runState = .running →
      t.flags = Config.freeFlags s.draws)

/-- R26: no instruction reads `FLAGS`. Two states that differ in `FLAGS` alone step to states that differ in `FLAGS` alone. -/
def Obligations.FlagsAreNotObservableByPrograms : Prop :=
  ∀ (s t : State) (f : Word), step s = .next t →
    ∃ t', step { s with flags := f } = .next t' ∧ t' = { t with flags := t'.flags }

/-! ### Data movement -/

/-- R100: MOV r32, imm32. -/
def Obligations.MovRegImmLoadsTheImmediate : Prop :=
  ∀ (r : Reg) (imm : BitVec 32) (s : State),
    let i := Instr.movRegImm r imm
    encode i = (0b10111#5 ++ r.toBits) :: bytesOfWord imm ∧
    (∃ t, exec i s = .next t ∧ t.reg r = imm ∧ RegsKeptBut [r] s t ∧ MemKept s t ∧
      PlainCommit s t (s.pc + 5#32)) ∧
    FieldFetchFaults s [0b10111#5 ++ r.toBits] 0#8 .dword

/-- R101: MOV r/m32, r32, to a register, to memory in range, and to memory out of range. -/
def Obligations.MovRmRegStoresTheRegister : Prop :=
  ∀ (rm : RM) (reg : Reg) (s : State), rm.wellFormed = true →
    let i := Instr.movRmReg rm reg
    encode i = 0x89#8 :: modrmByte rm.modBits reg.toBits rm.rmBits :: rm.dispBytes ∧
    (∀ r, resolve rm s = .reg r →
      ∃ t, exec i s = .next t ∧ t.reg r = s.reg reg ∧ RegsKeptBut [r] s t ∧ MemKept s t ∧
        PlainCommit s t (s.pc + BitVec.ofNat 32 (1 + rm.len))) ∧
    (∀ a, resolve rm s = .mem a → a.toNat + 4 ≤ s.params.memSize →
      ∃ t, exec i s = .next t ∧ t.wordAt a.toNat = s.reg reg ∧ MemKeptBut a.toNat s t ∧ RegsKeptBut [] s t ∧
        PlainCommit s t (s.pc + BitVec.ofNat 32 (1 + rm.len))) ∧
    (∀ a, resolve rm s = .mem a → s.params.memSize < a.toNat + 4 →
      FaultsWith s (accessReport i s a .write) (exec i s)) ∧
    DecodeErrorsFault i s

/-- R102: MOV r32, r/m32, from a register, from memory in range, and from memory out of range. -/
def Obligations.MovRegRmLoadsTheOperand : Prop :=
  ∀ (reg : Reg) (rm : RM) (s : State), rm.wellFormed = true →
    let i := Instr.movRegRm reg rm
    encode i = 0x8B#8 :: modrmByte rm.modBits reg.toBits rm.rmBits :: rm.dispBytes ∧
    (∀ r, resolve rm s = .reg r →
      ∃ t, exec i s = .next t ∧ t.reg reg = s.reg r ∧ RegsKeptBut [reg] s t ∧ MemKept s t ∧
        PlainCommit s t (s.pc + BitVec.ofNat 32 (1 + rm.len))) ∧
    (∀ a, resolve rm s = .mem a → a.toNat + 4 ≤ s.params.memSize →
      ∃ t, exec i s = .next t ∧ t.reg reg = s.wordAt a.toNat ∧ RegsKeptBut [reg] s t ∧ MemKept s t ∧
        PlainCommit s t (s.pc + BitVec.ofNat 32 (1 + rm.len))) ∧
    (∀ a, resolve rm s = .mem a → s.params.memSize < a.toNat + 4 →
      FaultsWith s (accessReport i s a .read) (exec i s)) ∧
    DecodeErrorsFault i s

/-! ### Arithmetic -/

/-- R110: the three ALU operations wrap modulo 2^32, on signed as on unsigned values; sign extension of an 8-bit immediate. -/
def Obligations.AluOperationsWrap : Prop :=
  ∀ a b : Word,
    (add32 a b).toNat = (a.toNat + b.toNat) % 2 ^ 32 ∧
    ((sub32 a b).toNat : Int) = ((a.toNat : Int) - b.toNat) % 2 ^ 32 ∧
    (inc32 a).toNat = (a.toNat + 1) % 2 ^ 32 ∧
    (∀ imm : BitVec 8, (sext32 imm).toInt = imm.toInt)

/-- R111: ADD r/m32, r32. -/
def Obligations.AddRmRegAddsIntoTheOperand : Prop :=
  ∀ (rm : RM) (reg : Reg) (s : State), rm.wellFormed = true →
    let i := Instr.addRmReg rm reg
    encode i = 0x01#8 :: modrmByte rm.modBits reg.toBits rm.rmBits :: rm.dispBytes ∧
    UpdatesRm i rm (fun a => a + s.reg reg) (1 + rm.len) s ∧
    DecodeErrorsFault i s

/-- R112: ADD r32, r/m32. -/
def Obligations.AddRegRmAddsIntoTheRegister : Prop :=
  ∀ (reg : Reg) (rm : RM) (s : State), rm.wellFormed = true →
    let i := Instr.addRegRm reg rm
    encode i = 0x03#8 :: modrmByte rm.modBits reg.toBits rm.rmBits :: rm.dispBytes ∧
    (∀ r, resolve rm s = .reg r →
      ∃ t, exec i s = .next t ∧ t.reg reg = s.reg reg + s.reg r ∧ RegsKeptBut [reg] s t ∧ MemKept s t ∧
        FlagsByPolicy s t ∧ ControlKept s t ∧ t.pc = s.pc + BitVec.ofNat 32 (1 + rm.len)) ∧
    (∀ a, resolve rm s = .mem a → a.toNat + 4 ≤ s.params.memSize →
      ∃ t, exec i s = .next t ∧ t.reg reg = s.reg reg + s.wordAt a.toNat ∧ RegsKeptBut [reg] s t ∧
        MemKept s t ∧ FlagsByPolicy s t ∧ ControlKept s t ∧ t.pc = s.pc + BitVec.ofNat 32 (1 + rm.len)) ∧
    (∀ a, resolve rm s = .mem a → s.params.memSize < a.toNat + 4 →
      FaultsWith s (accessReport i s a .read) (exec i s)) ∧
    DecodeErrorsFault i s

/-- R113: ADD r/m32, imm8, the immediate sign-extended; the immediate's fetch fails where memory ends before it. -/
def Obligations.AddRmImm8AddsTheSignExtendedImmediate : Prop :=
  ∀ (rm : RM) (imm : BitVec 8) (s : State), rm.wellFormed = true →
    let i := Instr.addRmImm8 rm imm
    let b := modrmByte rm.modBits 0#3 rm.rmBits
    encode i = 0x83#8 :: b :: (rm.dispBytes ++ [imm]) ∧
    UpdatesRm i rm (fun a => a + imm.signExtend 32) (2 + rm.len) s ∧
    FieldFetchFaults s (0x83#8 :: b :: rm.dispBytes) b .byte ∧
    DecodeErrorsFault i s

/-- R114: SUB r/m32, imm8, the immediate sign-extended; the immediate's fetch fails where memory ends before it. -/
def Obligations.SubRmImm8SubtractsTheSignExtendedImmediate : Prop :=
  ∀ (rm : RM) (imm : BitVec 8) (s : State), rm.wellFormed = true →
    let i := Instr.subRmImm8 rm imm
    let b := modrmByte rm.modBits 5#3 rm.rmBits
    encode i = 0x83#8 :: b :: (rm.dispBytes ++ [imm]) ∧
    UpdatesRm i rm (fun a => a - imm.signExtend 32) (2 + rm.len) s ∧
    FieldFetchFaults s (0x83#8 :: b :: rm.dispBytes) b .byte ∧
    DecodeErrorsFault i s

/-- R115: INC r/m32. -/
def Obligations.IncRmAddsOne : Prop :=
  ∀ (rm : RM) (s : State), rm.wellFormed = true →
    let i := Instr.incRm rm
    encode i = 0xFF#8 :: modrmByte rm.modBits 0#3 rm.rmBits :: rm.dispBytes ∧
    UpdatesRm i rm (fun a => a + 1#32) (1 + rm.len) s ∧
    DecodeErrorsFault i s

/-! ### The stack -/

/-- R130: the Push primitive. -/
def Obligations.PushDecrementsThenStores : Prop :=
  ∀ (v : Word) (s : State),
    let a := s.reg .esp - 4#32
    (a.toNat + 4 ≤ s.params.memSize →
      ∃ t, push v s = .ok t ∧ t.reg .esp = a ∧ t.wordAt a.toNat = v ∧ RegsKeptBut [.esp] s t ∧
        MemKeptBut a.toNat s t ∧ PlainCommit s t s.pc) ∧
    (s.params.memSize < a.toNat + 4 → push v s = .error (.memoryOutOfRange a.toNat .dword .write))

/-- R131: the Pop primitive reads at the current ESP, then increments; memory is kept. -/
def Obligations.PopLoadsThenIncrements : Prop :=
  ∀ s : State,
    let a := s.reg .esp
    (a.toNat + 4 ≤ s.params.memSize →
      ∃ t, pop s = .ok (s.wordAt a.toNat, t) ∧ t.reg .esp = a + 4#32 ∧ RegsKeptBut [.esp] s t ∧ MemKept s t ∧
        PlainCommit s t s.pc) ∧
    (s.params.memSize < a.toNat + 4 → pop s = .error (.memoryOutOfRange a.toNat .dword .read))

/-- R132: PUSH r32 pushes the register's value from before ESP moves, ESP's own included. -/
def Obligations.PushRegPushesTheOldValue : Prop :=
  ∀ (r : Reg) (s : State),
    encode (.pushReg r) = [0b01010#5 ++ r.toBits] ∧ Pushes (.pushReg r) (s.reg r) (s.pc + 1#32) s ∧
    OpcodeFetchFaults s

/-- R133: POP r32; popping into ESP leaves the popped value. -/
def Obligations.PopRegLoadsTheStackTop : Prop :=
  ∀ (r : Reg) (s : State),
    let i := Instr.popReg r
    let a := s.reg .esp
    encode i = [0b01011#5 ++ r.toBits] ∧
    (a.toNat + 4 ≤ s.params.memSize →
      ∃ t, exec i s = .next t ∧ t.reg r = s.wordAt a.toNat ∧ (r ≠ .esp → t.reg .esp = a + 4#32) ∧
        RegsKeptBut [.esp, r] s t ∧ MemKept s t ∧ PlainCommit s t (s.pc + 1#32)) ∧
    (s.params.memSize < a.toNat + 4 → FaultsWith s (accessReport i s a .read) (exec i s)) ∧
    OpcodeFetchFaults s

/-- R134: PUSH imm8 pushes the sign-extended immediate. -/
def Obligations.PushImm8PushesTheSignExtendedImmediate : Prop :=
  ∀ (imm : BitVec 8) (s : State),
    encode (.pushImm8 imm) = [0x6A#8, imm] ∧
    Pushes (.pushImm8 imm) (imm.signExtend 32) (s.pc + 2#32) s ∧
    FieldFetchFaults s [0x6A#8] 0#8 .byte

/-- R135: PUSH imm32. -/
def Obligations.PushImm32PushesTheImmediate : Prop :=
  ∀ (imm : BitVec 32) (s : State),
    encode (.pushImm32 imm) = 0x68#8 :: bytesOfWord imm ∧
    Pushes (.pushImm32 imm) imm (s.pc + 5#32) s ∧
    FieldFetchFaults s [0x68#8] 0#8 .dword

/-- R136: CALL rel32 pushes the next instruction's address and jumps relative to it; the target is not checked. -/
def Obligations.CallPushesTheReturnAddressAndJumps : Prop :=
  ∀ (rel : BitVec 32) (s : State),
    encode (.callRel32 rel) = 0xE8#8 :: bytesOfWord rel ∧
    Pushes (.callRel32 rel) (s.pc + 5#32) (s.pc + 5#32 + rel) s ∧
    FieldFetchFaults s [0xE8#8] 0#8 .dword

/-- R137: RET pops `pc`; any value is accepted. -/
def Obligations.RetPopsTheProgramCounter : Prop :=
  ∀ s : State,
    let a := s.reg .esp
    encode .ret = [0xC3#8] ∧
    (a.toNat + 4 ≤ s.params.memSize →
      ∃ t, exec .ret s = .next t ∧ t.reg .esp = a + 4#32 ∧ RegsKeptBut [.esp] s t ∧ MemKept s t ∧
        PlainCommit s t (s.wordAt a.toNat)) ∧
    (s.params.memSize < a.toNat + 4 → FaultsWith s (accessReport .ret s a .read) (exec .ret s)) ∧
    OpcodeFetchFaults s

/-- R138: LEAVE reads at the old EBP; if that read raises, ESP keeps its old value as well. -/
def Obligations.LeaveTearsDownTheFrame : Prop :=
  ∀ s : State,
    let a := s.reg .ebp
    encode .leave = [0xC9#8] ∧
    (a.toNat + 4 ≤ s.params.memSize →
      ∃ t, exec .leave s = .next t ∧ t.reg .esp = a + 4#32 ∧ t.reg .ebp = s.wordAt a.toNat ∧
        RegsKeptBut [.esp, .ebp] s t ∧ MemKept s t ∧ PlainCommit s t (s.pc + 1#32)) ∧
    (s.params.memSize < a.toNat + 4 → FaultsWith s (accessReport .leave s a .read) (exec .leave s)) ∧
    OpcodeFetchFaults s

/-- The push/pop round trip of R131, for any two registers: PUSH r then POP q moves r's value to q and, unless q is ESP,
leaves ESP as it was. -/
def Obligations.PushThenPopMovesARegister : Prop :=
  ∀ (r q : Reg) (s : State), (s.reg .esp - 4#32).toNat + 4 ≤ s.params.memSize →
    ∃ t u, exec (.pushReg r) s = .next t ∧ exec (.popReg q) t = .next u ∧ u.reg q = s.reg r ∧
      (q ≠ .esp → u.reg .esp = s.reg .esp) ∧ RegsKeptBut [.esp, q] s u

/-- The call/return round trip of R136 and R137: RET right after CALL goes to the instruction after the call with every
register as before it. -/
def Obligations.RetAfterCallReturns : Prop :=
  ∀ (rel : BitVec 32) (s : State), (s.reg .esp - 4#32).toNat + 4 ≤ s.params.memSize →
    ∃ t u, exec (.callRel32 rel) s = .next t ∧ exec .ret t = .next u ∧ u.pc = s.pc + 5#32 ∧ u.regs = s.regs

/-- R139: `push ebp`, `mov ebp, esp`, any body that keeps EBP and the saved word, then `leave`: EBP and ESP are what they
were before the prologue. -/
def Obligations.LeaveUndoesTheFrameSetUp : Prop :=
  ∀ s : State, (s.reg .esp - 4#32).toNat + 4 ≤ s.params.memSize →
    ∃ t u, exec (.pushReg .ebp) s = .next t ∧ exec (.movRmReg (.reg .ebp) .esp) t = .next u ∧
      ∀ w : State, w.params = u.params → w.reg .ebp = u.reg .ebp →
        w.wordAt (u.reg .ebp).toNat = u.wordAt (u.reg .ebp).toNat →
        ∃ x, exec .leave w = .next x ∧ x.reg .ebp = s.reg .ebp ∧ x.reg .esp = s.reg .esp

/-! ### Jumps -/

/-- R150: JMP rel8, relative to the next instruction, the displacement sign-extended; the target is not checked. -/
def Obligations.JmpRel8JumpsRelative : Prop :=
  ∀ (rel : BitVec 8) (s : State),
    encode (.jmpRel8 rel) = [0xEB#8, rel] ∧
    (∃ t, exec (.jmpRel8 rel) s = .next t ∧ RegsKeptBut [] s t ∧ MemKept s t ∧
      PlainCommit s t (s.pc + 2#32 + rel.signExtend 32)) ∧
    FieldFetchFaults s [0xEB#8] 0#8 .byte ∧
    OpcodeFetchFaults s

/-- R151: JMP rel32. -/
def Obligations.JmpRel32JumpsRelative : Prop :=
  ∀ (rel : BitVec 32) (s : State),
    encode (.jmpRel32 rel) = 0xE9#8 :: bytesOfWord rel ∧
    (∃ t, exec (.jmpRel32 rel) s = .next t ∧ RegsKeptBut [] s t ∧ MemKept s t ∧
      PlainCommit s t (s.pc + 5#32 + rel)) ∧
    FieldFetchFaults s [0xE9#8] 0#8 .dword ∧
    OpcodeFetchFaults s

/-! ### Memory -/

/-- R42 and R44: MemRead of 1 and 4 bytes, little-endian, bounds-checked on unbounded integers. -/
def Obligations.MemReadIsLittleEndianAndChecked : Prop :=
  ∀ (a : Nat) (s : State),
    (a + 1 ≤ s.params.memSize → memRead8 a s = .ok (s.byteAt a)) ∧
    (s.params.memSize < a + 1 → memRead8 a s = .error (.memoryOutOfRange a .byte .read)) ∧
    (a + 4 ≤ s.params.memSize →
      memRead32 a s = .ok (s.byteAt (a + 3) ++ s.byteAt (a + 2) ++ s.byteAt (a + 1) ++ s.byteAt a)) ∧
    (s.params.memSize < a + 4 → memRead32 a s = .error (.memoryOutOfRange a .dword .read))

/-- R43 and R44: MemWrite of 1 and 4 bytes: the bytes it places, that it changes no other byte and nothing else of
the state, and its bounds check. -/
def Obligations.MemWritePlacesTheBytes : Prop :=
  ∀ (a : Nat) (v : Word) (b : Byte) (s : State),
    (a + 1 ≤ s.params.memSize → ∃ t, memWrite8 a b s = .ok t ∧ t.byteAt a = b ∧
      (∀ c, c ≠ a → t.byteAt c = s.byteAt c) ∧ t.regs = s.regs ∧ PlainCommit s t s.pc) ∧
    (s.params.memSize < a + 1 → memWrite8 a b s = .error (.memoryOutOfRange a .byte .write)) ∧
    (a + 4 ≤ s.params.memSize → ∃ t, memWrite32 a v s = .ok t ∧
      t.byteAt a = v.extractLsb' 0 8 ∧ t.byteAt (a + 1) = v.extractLsb' 8 8 ∧
      t.byteAt (a + 2) = v.extractLsb' 16 8 ∧ t.byteAt (a + 3) = v.extractLsb' 24 8 ∧
      MemKeptBut a s t ∧ t.regs = s.regs ∧ PlainCommit s t s.pc) ∧
    (s.params.memSize < a + 4 → memWrite32 a v s = .error (.memoryOutOfRange a .dword .write))

/-- R52, R245: a committed write is what the next fetch reads, byte by byte. -/
def Obligations.StoreIsSeenByTheNextFetch : Prop :=
  ∀ (a j k : Nat) (v : Word) (s t : State), memWrite32 a v s = .ok t → k < 4 → j < maxLength →
    t.pc.toNat + j = a + k → (fetchWindow t)[j]? = some (v.extractLsb' (8 * k) 8)

/-! ### The host interface -/

/-- R240: reset with a full image sets every piece of state as listed. -/
def Obligations.HostResetSetsTheState : Prop :=
  ∀ (init : Init) (s : State), init.image.length = s.params.memSize →
    ∃ t, host s (.reset init) = (t, .nothing) ∧
      (∀ r, r ≠ .esp → t.reg r = init.regs.get r) ∧ t.reg .esp = init.sp ∧ t.pc = init.pc ∧
      t.flags = init.flags ∧ (∀ a, (h : a < init.image.length) → t.byteAt a = init.image[a]) ∧
      t.runState = .running ∧ t.fault = FaultRegs.none ∧ t.params = s.params

/-- R217: stop acts when RUNNING, resume when STOPPED, and neither changes any other state. -/
def Obligations.StopAndResumeChangeOnlyTheRunState : Prop :=
  ∀ s : State,
    (s.runState = .running → host s .stop = ({ s with runState := .stopped }, .nothing)) ∧
    (s.runState = .stopped → host s .resume = ({ s with runState := .running }, .nothing)) ∧
    (s.runState ≠ .running → host s .stop = (s, .nothing)) ∧
    (s.runState ≠ .stopped → host s .resume = (s, .nothing))

/-- R216, R28, R29: an inspect write of a register, `pc` or `FLAGS` changes exactly that location; no inspect write changes
RUN_STATE or the fault registers; an inspect read changes nothing and yields the location's value, that of RUN_STATE and of
each fault register too. That a value narrower than 32 bits is replied zero-extended is the model's choice (log 13). -/
def Obligations.RegisterInspectionIsExact : Prop :=
  ∀ (s : State) (v : Word),
    (∀ k, k < 8 → ∃ t, host s (.write (.reg k) v) = (t, .ok) ∧
      host t (.read (.writable (.reg k))) = (t, .value v) ∧
      RegsKeptBut [Reg.ofBits (BitVec.ofNat 3 k)] s t ∧ MemKept s t ∧ PlainCommit s t s.pc) ∧
    (∃ t, host s (.write .pc v) = (t, .ok) ∧ host t (.read (.writable .pc)) = (t, .value v) ∧
      RegsKeptBut [] s t ∧ MemKept s t ∧ PlainCommit s t v) ∧
    (∃ t, host s (.write .flags v) = (t, .ok) ∧ host t (.read (.writable .flags)) = (t, .value v) ∧
      RegsKeptBut [] s t ∧ MemKept s t ∧ t.pc = s.pc ∧ ControlKept s t) ∧
    (∀ l, (host s (.write l v)).1.runState = s.runState ∧ (host s (.write l v)).1.fault = s.fault) ∧
    (∀ l, (host s (.read l)).1 = s) ∧
    (s.runState = .running → host s (.read .runState) = (s, .value 0#32)) ∧
    (s.runState = .stopped → host s (.read .runState) = (s, .value 1#32)) ∧
    (s.runState = .faulted → host s (.read .runState) = (s, .value 2#32)) ∧
    host s (.read .faultKind) = (s, .value (s.fault.kind.zeroExtend 32)) ∧
    host s (.read .faultPc) = (s, .value s.fault.pc) ∧
    host s (.read .faultOpcode) = (s, .value (s.fault.opcode.zeroExtend 32)) ∧
    host s (.read .faultModrm) = (s, .value (s.fault.modrm.zeroExtend 32)) ∧
    host s (.read .faultAddr) = (s, .value s.fault.addr) ∧
    host s (.read .faultWidth) = (s, .value (s.fault.width.zeroExtend 32)) ∧
    host s (.read .faultAccess) = (s, .value (s.fault.access.zeroExtend 32))

/-- R216: an inspect write of 1 or 4 bytes of memory in range changes exactly those bytes and reads back. That a byte is
replied zero-extended is the model's choice (log 13). -/
def Obligations.MemoryInspectionIsExact : Prop :=
  ∀ (s : State) (a : Nat) (v : Word),
    (a + 4 ≤ s.params.memSize → ∃ t, host s (.write (.mem a .dword) v) = (t, .ok) ∧
      host t (.read (.writable (.mem a .dword))) = (t, .value v) ∧
      MemKeptBut a s t ∧ RegsKeptBut [] s t ∧ PlainCommit s t s.pc) ∧
    (a + 1 ≤ s.params.memSize → ∃ t, host s (.write (.mem a .byte) v) = (t, .ok) ∧
      host t (.read (.writable (.mem a .byte))) = (t, .value ((v.extractLsb' 0 8).zeroExtend 32)) ∧
      (∀ b, b ≠ a → t.byteAt b = s.byteAt b) ∧ RegsKeptBut [] s t ∧ PlainCommit s t s.pc)

/-- R205: a host access to a register index outside [0,8) or to memory outside [0, MEM_SIZE) is refused and changes
nothing, RUN_STATE and the fault registers included. That the refusal of a memory access carries its offset and width is the
model's choice (log 13). -/
def Obligations.BadHostAccessesAreRefused : Prop :=
  ∀ (s : State) (v : Word),
    (∀ k, 8 ≤ k → host s (.write (.reg k) v) = (s, .registerIndexOutOfRange k) ∧
      host s (.read (.writable (.reg k))) = (s, .registerIndexOutOfRange k)) ∧
    (∀ a w, s.params.memSize < a + w.bytes →
      host s (.write (.mem a w) v) = (s, .memoryOutOfRange a w) ∧
      host s (.read (.writable (.mem a w))) = (s, .memoryOutOfRange a w))

/-- R242: where the core is RUNNING and the host's policy says to go on, the loop makes one step request and goes on from
there; where the policy says to end, or the core is STOPPED or FAULTED, the loop ends with the state as it is. It reports
faulted exactly when it leaves the core FAULTED, and as long as every step commits and the policy goes on it makes as many
step requests as it may and the core is still RUNNING. The policy's arguments and the bound on requests, reported as
unfinished, are the model's choice (log 15). -/
def Obligations.RunLoopFollowsThePolicyAndReportsFaults : Prop :=
  ∀ (continues : Nat → State → Bool) (fuel taken : Nat) (s : State),
    (s.runState = .running → continues taken s = true →
      runLoop continues (fuel + 1) taken s = runLoop continues fuel (taken + 1) (host s .step).1 ∧
      runLoop continues 0 taken s = (s, .unfinished)) ∧
    (s.runState = .running → continues taken s = false → runLoop continues fuel taken s = (s, .stopped)) ∧
    (s.runState = .stopped → runLoop continues fuel taken s = (s, .stopped)) ∧
    (s.runState = .faulted → runLoop continues fuel taken s = (s, .faulted)) ∧
    ((runLoop continues fuel taken s).2 = .faulted ↔
      (runLoop continues fuel taken s).1.runState = .faulted) ∧
    (s.runState = .running → SafeRun fuel s → (∀ k t, continues k t = true) →
      runLoop continues fuel taken s = (hostRun s (List.replicate fuel .step), .unfinished) ∧
      (hostRun s (List.replicate fuel .step)).runState = .running)

/-- R243: a run ends faulted (from a RUNNING core, with a legal report), ends stopped, or diverges; an end, once reached, is
the end however many more requests are allowed. A core whose host never stops it does not end stopped, and `EB FE` diverges
under such a host. The bound on requests is the model's choice (log 15). -/
def Obligations.RunEndsFaultedOrStoppedOrDiverges : Prop :=
  ∀ (continues : Nat → State → Bool) (s : State),
    ((∃ n t, (t.runState = .faulted ∧ (s.runState = .running → t.fault.legal)) ∧
        ∀ m, n ≤ m → runLoop continues m 0 s = (t, .faulted)) ∨
      (∃ n t, t.runState ≠ .faulted ∧ ∀ m, n ≤ m → runLoop continues m 0 s = (t, .stopped)) ∨
      Diverges continues s) ∧
    (s.runState = .running → (∀ k t, continues k t = true) →
      (∀ n, (runLoop continues n 0 s).2 ≠ .stopped) ∧ (CodeAt s [0xEB#8, 0xFE#8] → Diverges continues s))
end

