-- ==== Sys2Proof/Laws/Bits.lean ====
section
/-! SUPPORT. Laws of the encoding's bit fields: registers and their indices, words and their bytes, the ModRM byte and its fields. -/

namespace Sys2Proof

@[simp] theorem Reg.ofBits_toBits (r : Reg) : Reg.ofBits r.toBits = r := by cases r <;> decide

@[simp] theorem Reg.toBits_ofBits (b : BitVec 3) : (Reg.ofBits b).toBits = b := by
  revert b; decide

theorem Reg.toBits_eq_iff (r r' : Reg) : r.toBits = r'.toBits ↔ r = r' :=
  ⟨fun h => by rw [← Reg.ofBits_toBits r, h, Reg.ofBits_toBits], fun h => h ▸ rfl⟩

theorem byteOfWord_getLsbD (v : Word) (k i : Nat) :
    (byteOfWord v k).getLsbD i = (decide (i < 8) && v.getLsbD (8 * k + i)) := by
  simp [byteOfWord]

/-- A word is its four bytes (20_memory.md R42, R43). -/
@[simp] theorem wordOfBytes_byteOfWord (v : Word) :
    wordOfBytes (byteOfWord v 0) (byteOfWord v 1) (byteOfWord v 2) (byteOfWord v 3) = v := by
  apply BitVec.eq_of_getLsbD_eq
  intro i hi
  simp only [wordOfBytes, BitVec.getLsbD_append, byteOfWord_getLsbD]
  by_cases h0 : i < 8
  · simp [h0]
  by_cases h1 : i < 16
  · have : i - 8 < 8 := by omega
    simp [h0, this, show 8 + (i - 8) = i by omega]
  by_cases h2 : i < 24
  · have a : ¬ i - 8 < 8 := by omega
    have b : i - 8 - 8 < 8 := by omega
    simp [h0, a, b, show 16 + (i - 8 - 8) = i by omega]
  · have a : ¬ i - 8 < 8 := by omega
    have b : ¬ i - 8 - 8 < 8 := by omega
    have c : i - 8 - 8 - 8 < 8 := by omega
    simp [h0, a, b, c, show 24 + (i - 8 - 8 - 8) = i by omega]

theorem byteOfWord_wordOfBytes (b0 b1 b2 b3 : Byte) :
    bytesOfWord (wordOfBytes b0 b1 b2 b3) = [b0, b1, b2, b3] := by
  have go : ∀ k b, (∀ i < 8, (wordOfBytes b0 b1 b2 b3).getLsbD (8 * k + i) = b.getLsbD i) →
      byteOfWord (wordOfBytes b0 b1 b2 b3) k = b := by
    intro k b h
    apply BitVec.eq_of_getLsbD_eq
    intro i hi
    rw [byteOfWord_getLsbD, h i hi]
    simp [hi]
  simp only [bytesOfWord, List.cons.injEq, and_true]
  refine ⟨go 0 b0 ?_, go 1 b1 ?_, go 2 b2 ?_, go 3 b3 ?_⟩ <;> intro i hi <;>
    simp only [wordOfBytes, BitVec.getLsbD_append]
  · simp [hi]
  · have a : ¬ 8 * 1 + i < 8 := by omega
    have b : 8 * 1 + i - 8 < 8 := by omega
    simp only [a, b, if_true, if_false]
    congr 1; omega
  · have a : ¬ 8 * 2 + i < 8 := by omega
    have b : ¬ 8 * 2 + i - 8 < 8 := by omega
    have c : 8 * 2 + i - 8 - 8 < 8 := by omega
    simp only [a, b, c, if_true, if_false]
    congr 1; omega
  · have a : ¬ 8 * 3 + i < 8 := by omega
    have b : ¬ 8 * 3 + i - 8 < 8 := by omega
    have c : ¬ 8 * 3 + i - 8 - 8 < 8 := by omega
    simp only [a, b, c, if_false]
    congr 1; omega

@[simp] theorem length_bytesOfWord (v : Word) : (bytesOfWord v).length = 4 := rfl

@[simp] theorem modOf_modrmByte (mod : BitVec 2) (reg rm : BitVec 3) :
    modOf (modrmByte mod reg rm) = mod := by revert mod reg rm; decide

@[simp] theorem regOf_modrmByte (mod : BitVec 2) (reg rm : BitVec 3) :
    regOf (modrmByte mod reg rm) = reg := by revert mod reg rm; decide

@[simp] theorem rmOf_modrmByte (mod : BitVec 2) (reg rm : BitVec 3) :
    rmOf (modrmByte mod reg rm) = rm := by revert mod reg rm; decide

/-- A ModRM byte is its three fields (30_encoding.md R64). -/
@[simp] theorem modrmByte_fields (b : Byte) : modrmByte (modOf b) (regOf b) (rmOf b) = b := by
  revert b; decide

/-- `sext_32` of an 8-bit value as 00_scope.md R7 writes it out. -/
theorem sext32_eq (b : Byte) :
    sext32 b = if b.getLsbD 7 then b.zeroExtend 32 + 0xFFFFFF00#32 else b.zeroExtend 32 := by
  revert b; decide

end Sys2Proof
end

