-- ==== Sys2Proof/Laws/Decode.lean ====
section
/-! SUPPORT. Laws of the decoder's parts: the fetches of fields, the dispatch table, and DecodeModRM in both directions. -/

namespace Sys2Proof

/-! ### Fields -/

@[simp] theorem takeByte_cons (off : Nat) (op modrm : Option Byte) (b : Byte) (rest : List Byte) :
    takeByte off op modrm (b :: rest) = .ok (b, rest) := rfl

@[simp] theorem takeByte_nil (off : Nat) (op modrm : Option Byte) :
    takeByte off op modrm [] = .error (.truncated off .byte op modrm) := rfl

/-- A little-endian field reads back the word it was written from. -/
@[simp] theorem takeWord_bytesOfWord (off : Nat) (op modrm : Option Byte) (v : Word) (rest : List Byte) :
    takeWord off op modrm (bytesOfWord v ++ rest) = .ok (v, rest) := by
  simp [bytesOfWord, takeWord]

theorem takeByte_eq_ok {off : Nat} {op modrm : Option Byte} {bs rest : List Byte} {b : Byte} :
    takeByte off op modrm bs = .ok (b, rest) ↔ bs = b :: rest := by
  cases bs <;> simp [takeByte]

theorem takeWord_eq_ok {off : Nat} {op modrm : Option Byte} {bs rest : List Byte} {v : Word} :
    takeWord off op modrm bs = .ok (v, rest) ↔ bs = bytesOfWord v ++ rest := by
  constructor
  · intro h
    match bs with
    | b0 :: b1 :: b2 :: b3 :: tl =>
      simp only [takeWord, Except.ok.injEq, Prod.mk.injEq] at h
      obtain ⟨rfl, rfl⟩ := h
      rw [byteOfWord_wordOfBytes]
      rfl
    | [] | [_] | [_, _] | [_, _, _] => simp [takeWord] at h
  · rintro rfl
    simp

/-- Fewer than four bytes are no 32-bit field. -/
theorem takeWord_of_short {off : Nat} {op modrm : Option Byte} {bs : List Byte} (h : bs.length < 4) :
    takeWord off op modrm bs = .error (.truncated off .dword op modrm) := by
  match bs with
  | [] | [_] | [_, _] | [_, _, _] => rfl
  | _ :: _ :: _ :: _ :: _ => simp only [List.length_cons] at h; omega

/-! ### The dispatch table (30_encoding.md R75) -/

/-- The opcode byte of an entry. -/
def Entry.opcode : Entry → Byte
  | .movRegImm r => 0b10111#5 ++ r.toBits
  | .pushReg r => 0b01010#5 ++ r.toBits
  | .popReg r => 0b01011#5 ++ r.toBits
  | .pushImm8 => 0x6A#8
  | .pushImm32 => 0x68#8
  | .callRel32 => 0xE8#8
  | .ret => 0xC3#8
  | .leave => 0xC9#8
  | .jmpRel8 => 0xEB#8
  | .jmpRel32 => 0xE9#8
  | .movRmReg => 0x89#8
  | .movRegRm => 0x8B#8
  | .addRmReg => 0x01#8
  | .addRegRm => 0x03#8
  | .grp83 => 0x83#8
  | .grpFF => 0xFF#8

/-- Every entry is found at its opcode byte. -/
@[simp] theorem dispatch_opcode (e : Entry) : dispatch e.opcode = some e := by
  cases e with
  | movRegImm r | pushReg r | popReg r => cases r <;> decide
  | _ => decide

/-- An entry is found at no other byte. -/
theorem opcode_of_dispatch {op : Byte} {e : Entry} (h : dispatch op = some e) : e.opcode = op := by
  have go : ∀ op : Byte, (dispatch op).all fun e => e.opcode == op := by decide
  have := go op
  rw [h] at this
  simpa using this

/-- The entry of an instruction's opcode byte. -/
def Instr.entry : Instr → Entry
  | .movRegImm r _ => .movRegImm r
  | .movRmReg _ _ => .movRmReg
  | .movRegRm _ _ => .movRegRm
  | .addRmReg _ _ => .addRmReg
  | .addRegRm _ _ => .addRegRm
  | .addRmImm8 _ _ => .grp83
  | .subRmImm8 _ _ => .grp83
  | .incRm _ => .grpFF
  | .pushReg r => .pushReg r
  | .popReg r => .popReg r
  | .pushImm8 _ => .pushImm8
  | .pushImm32 _ => .pushImm32
  | .callRel32 _ => .callRel32
  | .ret => .ret
  | .leave => .leave
  | .jmpRel8 _ => .jmpRel8
  | .jmpRel32 _ => .jmpRel32

theorem Instr.entry_opcode (i : Instr) : i.entry.opcode = i.opcode := by cases i <;> rfl

/-- The decoder finds an instruction's entry at its opcode byte. -/
@[simp] theorem dispatch_instr_opcode (i : Instr) : dispatch i.opcode = some i.entry := by
  rw [← i.entry_opcode, dispatch_opcode]

/-! ### DecodeModRM (R70) -/

/-- The ModRM byte of an r/m operand with a given `reg` field. -/
def RM.byte (rm : RM) (reg : BitVec 3) : Byte := modrmByte rm.modBits reg rm.rmBits

theorem RM.rejectedForm_byte (rm : RM) (reg : BitVec 3) : rejectedForm (rm.byte reg) = !rm.wellFormed := by
  cases rm with
  | reg r => simp [RM.byte, rejectedForm, RM.modBits, RM.wellFormed]
  | mem b | memDisp8 b d | memDisp32 b d =>
    cases b <;> simp [RM.byte, rejectedForm, RM.modBits, RM.rmBits, RM.wellFormed, Reg.toBits]

/-- DecodeModRM reads back the operand and the `reg` field that were encoded. -/
theorem decodeModRM_encoded (op : Byte) (rm : RM) (reg : BitVec 3) (rest : List Byte)
    (h : rm.wellFormed = true) :
    decodeModRM op (rm.byte reg :: (rm.dispBytes ++ rest)) = .ok ⟨rm.byte reg, reg, rm, rm.len, rest⟩ := by
  have hr := rm.rejectedForm_byte reg
  rw [h] at hr
  cases rm <;>
    simp [decodeModRM, bind, Except.bind, RM.byte, RM.modBits, RM.rmBits, RM.dispBytes, RM.len] <;>
    simp_all [RM.byte, RM.modBits, RM.rmBits]

/-- What DecodeModRM accepts is the encoding of a well-formed operand, followed by the rest. -/
theorem decodeModRM_eq_ok {op : Byte} {bs : List Byte} {m : ModRM} (h : decodeModRM op bs = .ok m) :
    m.rm.wellFormed = true ∧ m.byte = m.rm.byte m.reg ∧ m.len = m.rm.len ∧
      bs = m.rm.byte m.reg :: (m.rm.dispBytes ++ m.rest) := by
  cases bs with
  | nil => simp [decodeModRM, bind, Except.bind] at h
  | cons b rest =>
    simp only [decodeModRM, takeByte_cons, bind, Except.bind] at h
    split at h
    · cases h
    next hr =>
    have key : ∀ rm : RM, rm.modBits = modOf b → rm.rmBits = rmOf b →
        rm.wellFormed = true ∧ b = rm.byte (regOf b) := by
      intro rm h1 h2
      have hb : rm.byte (regOf b) = b := by rw [RM.byte, h1, h2, modrmByte_fields]
      have := rm.rejectedForm_byte (regOf b)
      rw [hb] at this
      exact ⟨by simpa [Bool.eq_false_iff.mpr hr] using this.symm, hb.symm⟩
    split at h
    · next hm =>
      cases h
      have := key (.reg (Reg.ofBits (rmOf b))) (by simp [RM.modBits, hm]) (by simp [RM.rmBits])
      exact ⟨this.1, this.2, rfl, by simp [RM.dispBytes, ← this.2]⟩
    split at h
    · next hm =>
      cases h
      have := key (.mem (Reg.ofBits (rmOf b))) (by simp [RM.modBits, hm]) (by simp [RM.rmBits])
      exact ⟨this.1, this.2, rfl, by simp [RM.dispBytes, ← this.2]⟩
    split at h
    · next hm =>
      split at h
      · cases h
      next p hp =>
      obtain ⟨d, tl⟩ := p
      cases h
      have := key (.memDisp8 (Reg.ofBits (rmOf b)) d) (by simp [RM.modBits, hm]) (by simp [RM.rmBits])
      exact ⟨this.1, this.2, rfl, by simp [RM.dispBytes, ← this.2, takeByte_eq_ok.mp hp]⟩
    · next h3 h0 h1 =>
      split at h
      · cases h
      next p hp =>
      obtain ⟨d, tl⟩ := p
      cases h
      have hm : modOf b = 2#2 := by
        revert h3 h0 h1
        generalize modOf b = x
        revert x
        decide
      have := key (.memDisp32 (Reg.ofBits (rmOf b)) d) (by simp [RM.modBits, hm]) (by simp [RM.rmBits])
      exact ⟨this.1, this.2, rfl, by simp [RM.dispBytes, ← this.2, takeWord_eq_ok.mp hp]⟩

/-- A rejected ModRM byte stops the parser before any displacement byte is fetched (R69). -/
theorem decodeModRM_rejected (op b : Byte) (rest : List Byte) (h : rejectedForm b = true) :
    decodeModRM op (b :: rest) = .error (.unsupportedAddressing op b) := by
  simp [decodeModRM, bind, Except.bind, h]

@[simp] theorem RM.length_dispBytes (rm : RM) : 1 + rm.dispBytes.length = rm.len := by
  cases rm <;> rfl

/-- The bytes of an instruction with an r/m operand begin with its ModRM byte and displacement. -/
theorem Instr.modrmBytes_of_rm {i : Instr} {rm : RM} (h : i.rm? = some rm) :
    i.modrmBytes = rm.byte i.regField :: rm.dispBytes := by
  simp [Instr.modrmBytes, h, RM.byte]

/-- The bytes of an instruction with an r/m operand, in order. -/
theorem encode_of_rm {i : Instr} {rm : RM} (h : i.rm? = some rm) :
    encode i = i.opcode :: rm.byte i.regField :: (rm.dispBytes ++ i.immBytes) := by
  rw [encode, Instr.modrmBytes_of_rm h, List.cons_append]

/-! ### Errors (R81) -/

/-- A mapped opcode byte hands the rest to its entry. -/
theorem decode_cons (op : Byte) (rest : List Byte) (e : Entry) (h : dispatch op = some e) :
    decode (op :: rest) = decodeEntry op rest e := by
  simp [decode, bind, Except.bind, h]

theorem takeByte_eq_error {off : Nat} {op modrm : Option Byte} {bs : List Byte} {e : DecodeError}
    (h : takeByte off op modrm bs = .error e) : e = .truncated off .byte op modrm ∧ bs = [] := by
  cases bs <;> simp_all [takeByte]

theorem takeWord_eq_error {off : Nat} {op modrm : Option Byte} {bs : List Byte} {e : DecodeError}
    (h : takeWord off op modrm bs = .error e) : e = .truncated off .dword op modrm ∧ bs.length < 4 := by
  match bs with
  | [] | [_] | [_, _] | [_, _, _] => simp_all [takeWord]
  | _ :: _ :: _ :: _ :: _ => simp [takeWord] at h

end Sys2Proof
end

