-- ==== Sys2Proof/Laws/Memory.lean ====
section
/-! SUPPORT. Laws of the byte memory: read after write, writes leave every other address alone, and every operation keeps the canonical form and the bound on addresses. -/

namespace Sys2Proof.Machine.Memory

theorem readByte_erase (m : Memory) (a b : Nat) :
    readByte (erase m a) b = if b = a then unlisted else readByte m b := by
  induction m with
  | nil => simp [erase, readByte]
  | cons c m ih =>
    obtain ⟨k, v⟩ := c
    simp only [erase] at ih ⊢
    by_cases hk : k = a
    · subst hk
      simp only [List.filter_cons, bne_self_eq_false, Bool.false_eq_true, if_false, ih, readByte]
      by_cases hb : b = k
      · simp [hb]
      · simp [hb, Ne.symm hb]
    · simp only [List.filter_cons, bne_iff_ne, ne_eq, hk, not_false_eq_true, if_true, readByte, ih]
      by_cases hb : k = b
      · subst hb; simp [hk]
      · simp [hb]

theorem readByte_insertCell (m : Memory) (a b : Nat) (v : Byte) (hm : ∀ c ∈ m, c.1 ≠ a) :
    readByte (insertCell m a v) b = if b = a then v else readByte m b := by
  induction m with
  | nil => simp [insertCell, readByte, eq_comm]
  | cons c m ih =>
    obtain ⟨k, w⟩ := c
    have hk : k ≠ a := hm (k, w) (by simp)
    have ih := ih fun c hc => hm c (by simp [hc])
    simp only [insertCell]
    split
    · by_cases hb : b = a
      · simp [readByte, hb]
      · simp [readByte, hb, Ne.symm hb]
    · simp only [readByte, ih]
      by_cases hb : k = b
      · subst hb; simp [hk]
      · simp [hb]

theorem ne_of_mem_erase {m : Memory} {a : Nat} {c : Host.Cell} (h : c ∈ erase m a) : c.1 ≠ a := by
  simpa [erase] using (List.mem_filter.mp h).2

/-- What a byte reads as after a byte was written (20_memory.md R42, R43). -/
theorem readByte_writeByte (m : Memory) (a b : Nat) (v : Byte) :
    readByte (writeByte m a v) b = if b = a then v else readByte m b := by
  unfold writeByte
  split
  · next hv => rw [readByte_erase, hv]
  · rw [readByte_insertCell _ _ _ _ fun c hc => ne_of_mem_erase hc, readByte_erase]
    by_cases hb : b = a <;> simp [hb]

@[simp] theorem readByte_writeByte_same (m : Memory) (a : Nat) (v : Byte) :
    readByte (writeByte m a v) a = v := by simp [readByte_writeByte]

theorem readByte_writeByte_of_ne (m : Memory) {a b : Nat} (v : Byte) (h : b ≠ a) :
    readByte (writeByte m a v) b = readByte m b := by simp [readByte_writeByte, h]

/-- What a byte reads as after bytes were written from `a` on. -/
theorem readByte_writeBytes (bs : List Byte) (m : Memory) (a b : Nat) :
    readByte (writeBytes m a bs) b =
      if a ≤ b ∧ b - a < bs.length then bs.getD (b - a) unlisted else readByte m b := by
  induction bs generalizing m a with
  | nil => simp [writeBytes]
  | cons v bs ih =>
    simp only [writeBytes, ih, List.length_cons]
    by_cases hab : b = a
    · subst hab
      rw [if_neg (by omega), if_pos (by omega)]
      simp
    · rw [readByte_writeByte_of_ne _ _ hab]
      by_cases h : a + 1 ≤ b ∧ b - (a + 1) < bs.length
      · rw [if_pos h, if_pos (by omega), show b - a = b - (a + 1) + 1 by omega, List.getD_cons_succ]
      · rw [if_neg h, if_neg (by omega)]

/-- The four bytes a word write puts (R43). -/
theorem readByte_writeWord_byte (m : Memory) (a : Nat) (v : Word) {k : Nat} (h : k < 4) :
    readByte (writeWord m a v) (a + k) = byteOfWord v k := by
  rw [writeWord, readByte_writeBytes, if_pos ⟨by omega, by rw [length_bytesOfWord]; omega⟩,
    Nat.add_sub_cancel_left]
  obtain rfl | rfl | rfl | rfl : k = 0 ∨ k = 1 ∨ k = 2 ∨ k = 3 := by omega
  all_goals rfl

/-- A word write leaves every byte outside its four alone (R43). -/
theorem readByte_writeWord_of_outside (m : Memory) {a b : Nat} (v : Word) (h : b < a ∨ a + 4 ≤ b) :
    readByte (writeWord m a v) b = readByte m b := by
  rw [writeWord, readByte_writeBytes, if_neg (by rw [length_bytesOfWord]; omega)]

/-- A written word reads back (R42, R43). -/
@[simp] theorem readWord_writeWord_same (m : Memory) (a : Nat) (v : Word) :
    readWord (writeWord m a v) a = v := by
  have h0 := readByte_writeWord_byte m a v (k := 0) (by omega)
  rw [Nat.add_zero] at h0
  rw [readWord, h0, readByte_writeWord_byte m a v (by omega), readByte_writeWord_byte m a v (by omega),
    readByte_writeWord_byte m a v (by omega), wordOfBytes_byteOfWord]

/-- Two words that share no byte: the write of one leaves the other. -/
theorem readWord_writeWord_of_disjoint (m : Memory) {a b : Nat} (v : Word)
    (h : b + 4 ≤ a ∨ a + 4 ≤ b) : readWord (writeWord m a v) b = readWord m b := by
  simp only [readWord]
  rw [readByte_writeWord_of_outside _ _ (by omega), readByte_writeWord_of_outside _ _ (by omega),
    readByte_writeWord_of_outside _ _ (by omega), readByte_writeWord_of_outside _ _ (by omega)]

/-! ### The canonical form -/

theorem wf_iff (m : Memory) :
    m.wf = true ↔ m.Pairwise (fun c d => c.1 < d.1) ∧ ∀ c ∈ m, c.2 ≠ unlisted := by
  simp only [wf, Bool.and_eq_true, decide_eq_true_eq, List.all_eq_true, bne_iff_ne]

theorem mem_insertCell {m : Memory} {a : Nat} {v : Byte} {c : Host.Cell} :
    c ∈ insertCell m a v ↔ c = (a, v) ∨ c ∈ m := by
  induction m with
  | nil => simp [insertCell]
  | cons d m ih =>
    simp only [insertCell]
    split <;> simp [ih, or_left_comm]

theorem pairwise_insertCell {m : Memory} {a : Nat} {v : Byte} (hm : ∀ c ∈ m, c.1 ≠ a)
    (h : m.Pairwise fun c d => c.1 < d.1) :
    (insertCell m a v).Pairwise fun c d => c.1 < d.1 := by
  induction m with
  | nil => simp [insertCell]
  | cons d m ih =>
    obtain ⟨k, w⟩ := d
    rw [List.pairwise_cons] at h
    have hk : k ≠ a := hm (k, w) (by simp)
    simp only [insertCell]
    split
    · next hlt =>
      refine List.pairwise_cons.mpr ⟨?_, List.pairwise_cons.mpr h⟩
      intro c hc
      rcases List.mem_cons.mp hc with rfl | hc
      · exact hlt
      · exact lt_trans hlt (h.1 c hc)
    · next hge =>
      refine List.pairwise_cons.mpr ⟨?_, ih (fun c hc => hm c (by simp [hc])) h.2⟩
      intro c hc
      rcases mem_insertCell.mp hc with rfl | hc
      · show k < a
        omega
      · exact h.1 c hc

/-- A byte write keeps the canonical form. -/
theorem wf_writeByte {m : Memory} (a : Nat) (v : Byte) (h : m.wf = true) :
    (writeByte m a v).wf = true := by
  rw [wf_iff] at h ⊢
  have he : (erase m a).Pairwise fun c d => c.1 < d.1 := h.1.filter _
  have hu : ∀ c ∈ erase m a, c.2 ≠ unlisted := fun c hc => h.2 c (List.mem_filter.mp hc).1
  unfold writeByte
  split
  · exact ⟨he, hu⟩
  · next hv =>
    refine ⟨pairwise_insertCell (fun c hc => ne_of_mem_erase hc) he, ?_⟩
    intro c hc
    rcases mem_insertCell.mp hc with rfl | hc
    · exact hv
    · exact hu c hc

/-- Consecutive byte writes keep the canonical form. -/
theorem wf_writeBytes (bs : List Byte) {m : Memory} (a : Nat) (h : m.wf = true) :
    (writeBytes m a bs).wf = true := by
  induction bs generalizing m a with
  | nil => exact h
  | cons b bs ih => exact ih (a + 1) (wf_writeByte a b h)

/-- A word write keeps the canonical form. -/
theorem wf_writeWord {m : Memory} (a : Nat) (v : Word) (h : m.wf = true) :
    (writeWord m a v).wf = true := wf_writeBytes _ a h

/-- A loader's image gives a memory in canonical form. -/
theorem wf_ofImage (image : List Byte) : (ofImage image).wf = true :=
  wf_writeBytes image 0 (by decide)

/-- Every cell of a written memory is an old one or at the written address. -/
theorem fst_mem_writeByte {m : Memory} {a : Nat} {v : Byte} {c : Host.Cell}
    (h : c ∈ writeByte m a v) : c.1 = a ∨ c ∈ m := by
  unfold writeByte at h
  split at h
  · exact .inr (List.mem_filter.mp h).1
  · rcases mem_insertCell.mp h with rfl | hc
    · exact .inl rfl
    · exact .inr (List.mem_filter.mp hc).1

theorem fst_mem_writeBytes {bs : List Byte} {m : Memory} {a : Nat} {c : Host.Cell}
    (h : c ∈ writeBytes m a bs) : (a ≤ c.1 ∧ c.1 < a + bs.length) ∨ c ∈ m := by
  induction bs generalizing m a with
  | nil => exact .inr h
  | cons b bs ih =>
    rcases ih h with h | h
    · exact .inl ⟨by omega, by simp only [List.length_cons]; omega⟩
    · rcases fst_mem_writeByte h with h | h
      · exact .inl ⟨by omega, by simp only [List.length_cons]; omega⟩
      · exact .inr h

/-- A loader's image read back (R240). -/
theorem readByte_ofImage (image : List Byte) (a : Nat) :
    readByte (ofImage image) a = image.getD a unlisted := by
  simp only [ofImage, readByte_writeBytes, Nat.zero_le, Nat.sub_zero, true_and]
  split
  · rfl
  · next h => rw [List.getD_eq_default _ _ (Nat.le_of_not_lt h), readByte]

end Sys2Proof.Machine.Memory
end

