-- ==== Sys2Proof/Laws/State.lean ====
section
/-! SUPPORT. What each named update of the state leaves in each field, so that no proof unfolds a record update. -/

namespace Sys2Proof.Machine

@[simp] theorem Regs.get_set_same (x : Regs) (r : Reg) (v : Word) : (x.set r v).get r = v := by
  cases r <;> rfl

theorem Regs.get_set_of_ne (x : Regs) {r r' : Reg} (v : Word) (h : r' ≠ r) :
    (x.set r v).get r' = x.get r' := by
  cases r <;> cases r' <;> first | rfl | exact absurd rfl h

theorem Regs.get_set (x : Regs) (r r' : Reg) (v : Word) :
    (x.set r v).get r' = if r' = r then v else x.get r' := by
  by_cases h : r' = r
  · simp [h]
  · simp [h, Regs.get_set_of_ne x v h]

/-- Writing a register its own value changes nothing. -/
@[simp] theorem Regs.set_get_same (x : Regs) (r : Reg) : x.set r (x.get r) = x := by
  cases r <;> rfl

/-- Two register files that agree on every register are equal. -/
theorem Regs.ext_get {x y : Regs} (h : ∀ r, x.get r = y.get r) : x = y := by
  cases x; cases y
  have h0 := h .eax; have h1 := h .ecx; have h2 := h .edx; have h3 := h .ebx
  have h4 := h .esp; have h5 := h .ebp; have h6 := h .esi; have h7 := h .edi
  simp only [Regs.get] at *
  subst_vars
  rfl

namespace State

variable (s : State) (r r' : Reg) (v w : Word) (n : Nat)

/-! `setReg` -/

theorem reg_setReg : (s.setReg r v).reg r' = if r' = r then v else s.reg r' := Regs.get_set _ _ _ _
@[simp] theorem reg_setReg_same : (s.setReg r v).reg r = v := Regs.get_set_same _ _ _
theorem reg_setReg_of_ne {r r' : Reg} (h : r' ≠ r) : (s.setReg r v).reg r' = s.reg r' :=
  Regs.get_set_of_ne _ _ h
@[simp] theorem setReg_regs : (s.setReg r v).regs = s.regs.set r v := rfl
@[simp] theorem setReg_pc : (s.setReg r v).pc = s.pc := rfl
@[simp] theorem setReg_flags : (s.setReg r v).flags = s.flags := rfl
@[simp] theorem setReg_mem : (s.setReg r v).mem = s.mem := rfl
@[simp] theorem setReg_runState : (s.setReg r v).runState = s.runState := rfl
@[simp] theorem setReg_fault : (s.setReg r v).fault = s.fault := rfl
@[simp] theorem setReg_params : (s.setReg r v).params = s.params := rfl
@[simp] theorem setReg_draws : (s.setReg r v).draws = s.draws := rfl
@[simp] theorem setReg_byteAt : (s.setReg r v).byteAt n = s.byteAt n := rfl
@[simp] theorem setReg_wordAt : (s.setReg r v).wordAt n = s.wordAt n := rfl
@[simp] theorem setReg_inRange (k : Nat) : (s.setReg r v).inRange n k = s.inRange n k := rfl

/-! `setPc` -/

@[simp] theorem setPc_pc : (s.setPc v).pc = v := rfl
@[simp] theorem setPc_reg : (s.setPc v).reg r = s.reg r := rfl
@[simp] theorem setPc_regs : (s.setPc v).regs = s.regs := rfl
@[simp] theorem setPc_flags : (s.setPc v).flags = s.flags := rfl
@[simp] theorem setPc_mem : (s.setPc v).mem = s.mem := rfl
@[simp] theorem setPc_runState : (s.setPc v).runState = s.runState := rfl
@[simp] theorem setPc_fault : (s.setPc v).fault = s.fault := rfl
@[simp] theorem setPc_params : (s.setPc v).params = s.params := rfl
@[simp] theorem setPc_draws : (s.setPc v).draws = s.draws := rfl
@[simp] theorem setPc_byteAt : (s.setPc v).byteAt n = s.byteAt n := rfl
@[simp] theorem setPc_wordAt : (s.setPc v).wordAt n = s.wordAt n := rfl
@[simp] theorem setPc_inRange (k : Nat) : (s.setPc v).inRange n k = s.inRange n k := rfl

/-! `advance` -/

@[simp] theorem advance_pc : (s.advance n).pc = s.pc + BitVec.ofNat 32 n := rfl
@[simp] theorem advance_reg : (s.advance n).reg r = s.reg r := rfl
@[simp] theorem advance_regs : (s.advance n).regs = s.regs := rfl
@[simp] theorem advance_flags : (s.advance n).flags = s.flags := rfl
@[simp] theorem advance_mem : (s.advance n).mem = s.mem := rfl
@[simp] theorem advance_runState : (s.advance n).runState = s.runState := rfl
@[simp] theorem advance_fault : (s.advance n).fault = s.fault := rfl
@[simp] theorem advance_params : (s.advance n).params = s.params := rfl
@[simp] theorem advance_draws : (s.advance n).draws = s.draws := rfl
@[simp] theorem advance_byteAt (a : Nat) : (s.advance n).byteAt a = s.byteAt a := rfl
@[simp] theorem advance_wordAt (a : Nat) : (s.advance n).wordAt a = s.wordAt a := rfl

end State

/-! `aluFlags` (10_state.md R27) -/

section
variable (s : State) (r : Reg) (a : Nat)

@[simp] theorem aluFlags_regs : (aluFlags s).regs = s.regs := by unfold aluFlags; split <;> rfl
@[simp] theorem aluFlags_reg : (aluFlags s).reg r = s.reg r := by unfold aluFlags; split <;> rfl
@[simp] theorem aluFlags_pc : (aluFlags s).pc = s.pc := by unfold aluFlags; split <;> rfl
@[simp] theorem aluFlags_mem : (aluFlags s).mem = s.mem := by unfold aluFlags; split <;> rfl
@[simp] theorem aluFlags_byteAt : (aluFlags s).byteAt a = s.byteAt a := by unfold aluFlags; split <;> rfl
@[simp] theorem aluFlags_wordAt : (aluFlags s).wordAt a = s.wordAt a := by unfold aluFlags; split <;> rfl
@[simp] theorem aluFlags_runState : (aluFlags s).runState = s.runState := by unfold aluFlags; split <;> rfl
@[simp] theorem aluFlags_fault : (aluFlags s).fault = s.fault := by unfold aluFlags; split <;> rfl
@[simp] theorem aluFlags_params : (aluFlags s).params = s.params := by unfold aluFlags; split <;> rfl

theorem aluFlags_of_preserve (h : s.params.flagPolicy = .preserve) : aluFlags s = s := by
  simp [aluFlags, h]

theorem aluFlags_flags_of_havoc (h : s.params.flagPolicy = .havoc) :
    (aluFlags s).flags = Config.freeFlags s.draws := by simp [aluFlags, h]
end

/-! `enterFault` (60_exceptions.md R207) -/

section
variable (op modrm : Option Byte) (f : Fault) (s : State) (r : Reg) (a : Nat)

@[simp] theorem enterFault_runState : (enterFault op modrm f s).runState = .faulted := rfl
@[simp] theorem enterFault_fault : (enterFault op modrm f s).fault = faultReport op modrm f s := rfl
@[simp] theorem enterFault_regs : (enterFault op modrm f s).regs = s.regs := rfl
@[simp] theorem enterFault_reg : (enterFault op modrm f s).reg r = s.reg r := rfl
@[simp] theorem enterFault_pc : (enterFault op modrm f s).pc = s.pc := rfl
@[simp] theorem enterFault_flags : (enterFault op modrm f s).flags = s.flags := rfl
@[simp] theorem enterFault_mem : (enterFault op modrm f s).mem = s.mem := rfl
@[simp] theorem enterFault_byteAt : (enterFault op modrm f s).byteAt a = s.byteAt a := rfl
@[simp] theorem enterFault_params : (enterFault op modrm f s).params = s.params := rfl
end

end Sys2Proof.Machine
end

