-- ==== Sys2Proof/Laws/Ops.lean ====
section
/-! SUPPORT. What each shared operation can do, said once: the memory primitives, Push and Pop, the operand accessors, the fault entry, the transaction, and the fetch window. -/

namespace Sys2Proof.Machine

theorem inRange_iff (s : State) (a n : Nat) : s.inRange a n = true ↔ a + n ≤ s.params.memSize := by
  simp [State.inRange]

/-! ### Memory primitives -/

section
variable {s t : State} {a : Nat} {v : Word}

theorem memRead32_of_inRange (h : s.inRange a 4 = true) : memRead32 a s = .ok (s.wordAt a) := by
  simp [memRead32, h]

theorem memRead32_of_outside (h : s.inRange a 4 = false) :
    memRead32 a s = .error (.memoryOutOfRange a .dword .read) := by simp [memRead32, h]

theorem memWrite32_of_inRange (h : s.inRange a 4 = true) :
    memWrite32 a v s = .ok { s with mem := s.mem.writeWord a v } := by simp [memWrite32, h]

theorem memWrite32_of_outside (h : s.inRange a 4 = false) :
    memWrite32 a v s = .error (.memoryOutOfRange a .dword .write) := by simp [memWrite32, h]

/-- A word read succeeds exactly in range, and yields the word there. -/
theorem memRead32_eq_ok : memRead32 a s = .ok v ↔ s.inRange a 4 = true ∧ v = s.wordAt a := by
  cases h : s.inRange a 4
  · simp [memRead32_of_outside h]
  · simp [memRead32_of_inRange h, eq_comm]

/-- A word write succeeds exactly in range, and changes memory alone. -/
theorem memWrite32_eq_ok :
    memWrite32 a v s = .ok t ↔ s.inRange a 4 = true ∧ t = { s with mem := s.mem.writeWord a v } := by
  cases h : s.inRange a 4
  · simp [memWrite32_of_outside h]
  · simp [memWrite32_of_inRange h, eq_comm]
end

/-! ### Push and Pop -/

section
variable {s t : State} {v : Word}

/-- `Push(v)` in range (42_stack_call.md R130). -/
theorem push_of_inRange (h : s.inRange (s.reg .esp - 4#32).toNat 4 = true) :
    push v s = .ok ({ s with mem := s.mem.writeWord (s.reg .esp - 4#32).toNat v }.setReg .esp
      (s.reg .esp - 4#32)) := by
  show (memWrite32 (s.reg .esp - 4#32).toNat v s >>= fun t => pure (t.setReg .esp (s.reg .esp - 4#32))) = _
  rw [memWrite32_of_inRange h]
  rfl

theorem push_of_outside (h : s.inRange (s.reg .esp - 4#32).toNat 4 = false) :
    push v s = .error (.memoryOutOfRange (s.reg .esp - 4#32).toNat .dword .write) := by
  show (memWrite32 (s.reg .esp - 4#32).toNat v s >>= fun t => pure (t.setReg .esp (s.reg .esp - 4#32))) = _
  rw [memWrite32_of_outside h]
  rfl

/-- `Pop()` in range (R131). -/
theorem pop_of_inRange (h : s.inRange (s.reg .esp).toNat 4 = true) :
    pop s = .ok (s.wordAt (s.reg .esp).toNat, s.setReg .esp (s.reg .esp + 4#32)) := by
  simp [pop, memRead32_of_inRange h, bind, Except.bind, pure, Except.pure]

theorem pop_of_outside (h : s.inRange (s.reg .esp).toNat 4 = false) :
    pop s = .error (.memoryOutOfRange (s.reg .esp).toNat .dword .read) := by
  simp [pop, memRead32_of_outside h, bind, Except.bind]
end

/-- What a push that succeeds leaves. -/
theorem push_eq_ok {s t : State} {v : Word} :
    push v s = .ok t ↔ s.inRange (s.reg .esp - 4#32).toNat 4 = true ∧
      t = { s with mem := s.mem.writeWord (s.reg .esp - 4#32).toNat v }.setReg .esp (s.reg .esp - 4#32) := by
  cases h : s.inRange (s.reg .esp - 4#32).toNat 4
  · simp [push_of_outside h]
  · simp [push_of_inRange h, eq_comm]

/-- What a pop that succeeds yields and leaves. -/
theorem pop_eq_ok {s t : State} {v : Word} :
    pop s = .ok (v, t) ↔ s.inRange (s.reg .esp).toNat 4 = true ∧
      v = s.wordAt (s.reg .esp).toNat ∧ t = s.setReg .esp (s.reg .esp + 4#32) := by
  cases h : s.inRange (s.reg .esp).toNat 4
  · simp [pop_of_outside h]
  · simp [pop_of_inRange h, eq_comm]

/-! ### Operand accessors (30_encoding.md R72) -/

section
variable (s : State) (r : Reg) (v : Word)

@[simp] theorem readLoc_reg : readLoc (.reg r) s = .ok (s.reg r) := rfl
@[simp] theorem writeLoc_reg : writeLoc (.reg r) v s = .ok (s.setReg r v) := rfl
@[simp] theorem readLoc_mem (ea : Word) : readLoc (.mem ea) s = memRead32 ea.toNat s := rfl
@[simp] theorem writeLoc_mem (ea : Word) : writeLoc (.mem ea) v s = memWrite32 ea.toNat v s := rfl
end

/-! ### The fault entry -/

/-- A 32-bit address is recorded as it is. -/
@[simp] theorem faultAddr_toNat (a : Word) (n : Nat) : faultAddr a.toNat n = a := by
  simp [faultAddr, a.isLt]

/-- The report of a failed 4-byte data access. -/
theorem faultReport_access (i : Instr) (s : State) (a : Word) (c : Access) :
    faultReport (some i.opcode) i.modrm? (.memoryOutOfRange a.toNat .dword c) s = accessReport i s a c := by
  simp [faultReport, accessReport, Fault.code, AccessWidth.bytes]

/-- A report is legal whatever the fault (10_state.md R29). -/
theorem faultReport_legal (op modrm : Option Byte) (f : Fault) (s : State) :
    (faultReport op modrm f s).legal := by
  cases f with
  | unsupportedOpcode o => exact .inl ⟨rfl, rfl, rfl, rfl, rfl⟩
  | unsupportedGroupSelector o b => exact .inr (.inl ⟨.inl rfl, rfl, rfl, rfl⟩)
  | unsupportedAddressing o b => exact .inr (.inl ⟨.inr rfl, rfl, rfl, rfl⟩)
  | memoryOutOfRange a w c =>
    refine .inr (.inr ⟨rfl, ?_, ?_⟩)
    · cases w
      · exact .inl rfl
      · exact .inr rfl
    · cases c <;> simp [faultReport, Access.code]

/-! ### The transaction (00_scope.md R9) -/

section
variable {i : Instr} {s t : State} {body : Except Fault State}

theorem transact_ok (h : i.wellFormed = true) : transact i s (.ok t) = .next t := by
  simp [transact, h]

theorem transact_error {f : Fault} (h : i.wellFormed = true) :
    transact i s (.error f) = .next (enterFault (some i.opcode) i.modrm? f s) := by
  simp [transact, h]

/-- A transaction commits what its body ended with, or enters a fault from the state before it. -/
theorem transact_cases (h : transact i s body = .next t) :
    (i.wellFormed = true ∧ body = .ok t) ∨ ∃ op modrm f, t = enterFault op modrm f s := by
  unfold transact at h
  split at h
  · next hw =>
    cases body with
    | ok u => exact .inl ⟨hw, by simpa using h⟩
    | error f => exact .inr ⟨_, _, f, by simpa using h.symm⟩
  · exact .inr ⟨_, _, _, by simpa using h.symm⟩

/-- A transaction always answers a next state. -/
theorem transact_next (i : Instr) (s : State) (body : Except Fault State) :
    ∃ t, transact i s body = .next t := by
  unfold transact
  split
  · cases body with
    | ok u => exact ⟨u, rfl⟩
    | error f => exact ⟨_, rfl⟩
  · exact ⟨_, rfl⟩
end

/-- A sequence that ends normally has a first part that did. -/
theorem bind_eq_ok {ε α β : Type} {x : Except ε α} {f : α → Except ε β} {b : β} :
    (x >>= f) = .ok b ↔ ∃ a, x = .ok a ∧ f a = .ok b := by
  cases x <;> simp [bind, Except.bind]

/-! ### The fetch window (30_encoding.md R61) -/

/-- The bytes read from memory are those of memory, as far as the count and the capacity reach. -/
theorem getElem?_bytesFrom (s : State) (a n k : Nat) :
    (bytesFrom s a n)[k]? = if k < n ∧ a + k < s.params.memSize then some (s.byteAt (a + k)) else none := by
  induction n generalizing a k with
  | zero => simp [bytesFrom]
  | succ n ih =>
    unfold bytesFrom
    by_cases h : a + 1 ≤ s.params.memSize
    · rw [if_pos ((inRange_iff s a 1).mpr h)]
      cases k with
      | zero => simp; omega
      | succ k =>
        rw [List.getElem?_cons_succ, ih, show a + (k + 1) = a + 1 + k by omega]
        simp
    · rw [if_neg (by rw [inRange_iff]; exact h), if_neg (by omega)]
      simp

/-- The length of what is read. -/
theorem length_bytesFrom (s : State) (a n : Nat) :
    (bytesFrom s a n).length = min n (s.params.memSize - a) := by
  induction n generalizing a with
  | zero => simp [bytesFrom]
  | succ n ih =>
    unfold bytesFrom
    by_cases h : a + 1 ≤ s.params.memSize
    · rw [if_pos ((inRange_iff s a 1).mpr h), List.length_cons, ih]
      omega
    · rw [if_neg (by rw [inRange_iff]; exact h), List.length_nil]
      omega

/-- A window over code that memory holds begins with that code. -/
theorem fetchWindow_of_codeAt {s : State} {bs : List Byte} (h : CodeAt s bs) (hl : bs.length ≤ maxLength) :
    ∃ rest, fetchWindow s = bs ++ rest := by
  refine ⟨(fetchWindow s).drop bs.length, ?_⟩
  conv_lhs => rw [← List.take_append_drop bs.length (fetchWindow s)]
  congr 1
  apply List.ext_getElem?
  intro k
  by_cases hk : k < bs.length
  · rw [List.getElem?_take_of_lt hk, fetchWindow, getElem?_bytesFrom,
      if_pos ⟨by omega, by have := h.1; omega⟩, h.2 k hk, List.getElem?_eq_getElem hk]
  · rw [List.getElem?_eq_none (by simp; omega), List.getElem?_eq_none (by omega)]

/-- Where memory ends with that code, the window is that code. -/
theorem fetchWindow_of_codeAt_end {s : State} {bs : List Byte} (h : CodeAt s bs) (hl : bs.length ≤ maxLength)
    (he : s.pc.toNat + bs.length = s.params.memSize) : fetchWindow s = bs := by
  obtain ⟨rest, hr⟩ := fetchWindow_of_codeAt h hl
  have hlen := congrArg List.length hr
  rw [fetchWindow, length_bytesFrom, List.length_append] at hlen
  have : rest.length = 0 := by omega
  rw [hr, List.length_eq_zero_iff.mp this, List.append_nil]

/-- A result that is a fault entry with a given report. -/
theorem faultsWith_enterFault {s : State} {op m : Option Byte} {f : Fault} {report : FaultRegs} {result : Result}
    (h : faultReport op m f s = report) (hres : result = .next (enterFault op m f s)) :
    FaultsWith s report result := ⟨_, hres, rfl, h, rfl, rfl, rfl, rfl, rfl⟩

end Sys2Proof.Machine
end

