-- ==== Sys2Proof/Laws/PerInstr.lean ====
section
/-! SUPPORT. Statements made per instruction, one lemma per constructor of Instr: the length of an encoding is the instruction's length, between 1 and 7 bytes (30_encoding.md R74). -/

namespace Sys2Proof.Laws.EncodedLength

/-- The encoder emits exactly `length` bytes, at least 1 and at most 7. -/
def Statement (i : Instr) : Prop := (encode i).length = i.length ∧ 1 ≤ i.length ∧ i.length ≤ maxLength

theorem rm_len (rm : RM) : 1 ≤ rm.len ∧ rm.len ≤ 5 := by cases rm <;> simp [RM.len]

/-- Instructions with a ModRM byte: opcode, ModRM byte and displacement, immediate. -/
theorem of_rm {i : Instr} {rm : RM} (h : i.rm? = some rm)
    (hl : i.length = 1 + rm.len + i.immBytes.length) (hi : i.immBytes.length ≤ 1) : Statement i := by
  have := rm_len rm
  have hd := rm.length_dispBytes
  refine ⟨?_, by omega, by simp only [maxLength]; omega⟩
  simp only [encode, Instr.modrmBytes_of_rm h, List.length_cons, List.length_append]
  omega

theorem movRegImm (r : Reg) (imm : BitVec 32) : Statement (.movRegImm r imm) := by
  simp [Statement, encode, Instr.modrmBytes, Instr.rm?, Instr.immBytes, Instr.length, maxLength]
theorem movRmReg (rm : RM) (reg : Reg) : Statement (.movRmReg rm reg) := of_rm rfl rfl (by simp [Instr.immBytes])
theorem movRegRm (reg : Reg) (rm : RM) : Statement (.movRegRm reg rm) := of_rm rfl rfl (by simp [Instr.immBytes])
theorem addRmReg (rm : RM) (reg : Reg) : Statement (.addRmReg rm reg) := of_rm rfl rfl (by simp [Instr.immBytes])
theorem addRegRm (reg : Reg) (rm : RM) : Statement (.addRegRm reg rm) := of_rm rfl rfl (by simp [Instr.immBytes])
theorem addRmImm8 (rm : RM) (imm : BitVec 8) : Statement (.addRmImm8 rm imm) :=
  of_rm rfl (by simp [Instr.length, Instr.immBytes]; omega) (by simp [Instr.immBytes])
theorem subRmImm8 (rm : RM) (imm : BitVec 8) : Statement (.subRmImm8 rm imm) :=
  of_rm rfl (by simp [Instr.length, Instr.immBytes]; omega) (by simp [Instr.immBytes])
theorem incRm (rm : RM) : Statement (.incRm rm) := of_rm rfl rfl (by simp [Instr.immBytes])
theorem pushReg (r : Reg) : Statement (.pushReg r) := by
  simp [Statement, encode, Instr.modrmBytes, Instr.rm?, Instr.immBytes, Instr.length, maxLength]
theorem popReg (r : Reg) : Statement (.popReg r) := by
  simp [Statement, encode, Instr.modrmBytes, Instr.rm?, Instr.immBytes, Instr.length, maxLength]
theorem pushImm8 (imm : BitVec 8) : Statement (.pushImm8 imm) := by
  simp [Statement, encode, Instr.modrmBytes, Instr.rm?, Instr.immBytes, Instr.length, maxLength]
theorem pushImm32 (imm : BitVec 32) : Statement (.pushImm32 imm) := by
  simp [Statement, encode, Instr.modrmBytes, Instr.rm?, Instr.immBytes, Instr.length, maxLength]
theorem callRel32 (rel : BitVec 32) : Statement (.callRel32 rel) := by
  simp [Statement, encode, Instr.modrmBytes, Instr.rm?, Instr.immBytes, Instr.length, maxLength]
theorem ret : Statement .ret := by
  simp [Statement, encode, Instr.modrmBytes, Instr.rm?, Instr.immBytes, Instr.length, maxLength]
theorem leave : Statement .leave := by
  simp [Statement, encode, Instr.modrmBytes, Instr.rm?, Instr.immBytes, Instr.length, maxLength]
theorem jmpRel8 (rel : BitVec 8) : Statement (.jmpRel8 rel) := by
  simp [Statement, encode, Instr.modrmBytes, Instr.rm?, Instr.immBytes, Instr.length, maxLength]
theorem jmpRel32 (rel : BitVec 32) : Statement (.jmpRel32 rel) := by
  simp [Statement, encode, Instr.modrmBytes, Instr.rm?, Instr.immBytes, Instr.length, maxLength]

end Sys2Proof.Laws.EncodedLength
end

