-- ==== Sys2Proof/Laws/Step.lean ====
section
/-! SUPPORT. What exec and step can do, said once: exec commits one of a few shapes of change or enters a fault; step runs the decoded instruction, enters the fault of a failed decode, or does nothing. -/

namespace Sys2Proof.Machine

/-- A parser cut off inside the ModRM byte or the displacement fails at the fetch that reads the missing byte, with the
ModRM byte recorded once it was there (30_encoding.md R70; R81, checks 3 and 5). -/
theorem decodeModRM_cutOff {op : Byte} {rm : RM} {reg : BitVec 3} {tail : List Byte} {n : Nat}
    (hw : rm.wellFormed = true) (hn : n < rm.len) :
    ∃ m, decodeModRM op ((rm.byte reg :: (rm.dispBytes ++ tail)).take n) =
        .error (.truncated (rmFetch rm (n + 1)).1 (rmFetch rm (n + 1)).2 (some op) m) ∧
      m.getD 0#8 = if n = 0 then 0#8 else rm.byte reg := by
  have hr := rm.rejectedForm_byte reg
  rw [hw] at hr
  cases n with
  | zero => exact ⟨none, rfl, rfl⟩
  | succ n =>
    cases rm with
    | reg r | mem r => simp [RM.len] at hn
    | memDisp8 b d =>
      have : n = 0 := by simp [RM.len] at hn; omega
      subst this
      refine ⟨some _, ?_, rfl⟩
      simp [decodeModRM, bind, Except.bind, RM.byte, RM.modBits, RM.rmBits]
      simp_all [RM.byte, RM.modBits, RM.rmBits, rmFetch]
    | memDisp32 b d =>
      simp [RM.len] at hn
      refine ⟨some _, ?_, rfl⟩
      have short := fun o m => takeWord_of_short (off := 2) (op := some o) (modrm := m)
        (bs := (bytesOfWord d ++ tail).take n) (by simp; omega)
      simp [decodeModRM, bind, Except.bind, RM.byte, RM.modBits, RM.rmBits, RM.dispBytes, short]
      simp_all [RM.byte, RM.modBits, RM.rmBits, rmFetch]

/-- What every committed instruction leaves: the run state, the fault registers and the parameters are
kept, and memory is kept but for at most one word written in range. -/
structure Committed (s t : State) : Prop where
  runState : t.runState = s.runState
  fault : t.fault = s.fault
  params : t.params = s.params
  mem : t.mem = s.mem ∨ ∃ a v, s.inRange a 4 = true ∧ t.mem = s.mem.writeWord a v

namespace Committed

/-- An update of registers, `pc`, `FLAGS` and the draw count keeps the rest. -/
theorem of_same {s t u : State} (h : Committed s t) (h1 : u.runState = t.runState) (h2 : u.fault = t.fault)
    (h3 : u.params = t.params) (h4 : u.mem = t.mem) : Committed s u :=
  ⟨h1.trans h.runState, h2.trans h.fault, h3.trans h.params, h4 ▸ h.mem⟩

theorem refl (s : State) : Committed s s := ⟨rfl, rfl, rfl, .inl rfl⟩

theorem advance {s t : State} (h : Committed s t) (n : Nat) : Committed s (t.advance n) :=
  h.of_same rfl rfl rfl rfl

theorem setPc {s t : State} (h : Committed s t) (v : Word) : Committed s (t.setPc v) :=
  h.of_same rfl rfl rfl rfl

theorem setReg {s t : State} (h : Committed s t) (r : Reg) (v : Word) : Committed s (t.setReg r v) :=
  h.of_same rfl rfl rfl rfl

theorem aluFlags {s t : State} (h : Committed s t) : Committed s (aluFlags t) :=
  h.of_same (by simp) (by simp) (by simp) (by simp)

theorem of_memWrite32 {s t : State} {a : Nat} {v : Word} (h : memWrite32 a v s = .ok t) : Committed s t := by
  obtain ⟨hr, rfl⟩ := memWrite32_eq_ok.mp h
  exact ⟨rfl, rfl, rfl, .inr ⟨a, v, hr, rfl⟩⟩

theorem of_writeLoc {s t : State} {loc : Location} {v : Word} (h : writeLoc loc v s = .ok t) :
    Committed s t := by
  cases loc with
  | reg r => cases h; exact (refl s).setReg r v
  | mem ea => exact of_memWrite32 h

theorem of_push {s t : State} {v : Word} (h : push v s = .ok t) : Committed s t := by
  obtain ⟨u, hu, ht⟩ := bind_eq_ok.mp h
  cases ht
  exact (of_memWrite32 hu).setReg _ _

theorem of_pop {s t : State} {v : Word} (h : pop s = .ok (v, t)) : Committed s t := by
  obtain ⟨u, -, ht⟩ := bind_eq_ok.mp h
  cases ht
  exact (refl s).setReg _ _

theorem of_modifyRm {s t : State} {rm : RM} {f : Word → Word} {n : Nat} (h : modifyRm rm f n s = .ok t) :
    Committed s t := by
  obtain ⟨a, -, h⟩ := bind_eq_ok.mp h
  obtain ⟨u, hu, ht⟩ := bind_eq_ok.mp h
  cases ht
  exact (of_writeLoc hu).aluFlags.advance n

end Committed

/-- An instruction whose transaction ends normally. -/
theorem exec_of_ok {i : Instr} {s t : State} {body : Except Fault State} (he : exec i s = transact i s body)
    (h : i.wellFormed = true) (hb : body = .ok t) : exec i s = .next t := by
  rw [he, hb, transact_ok h]

/-- An instruction whose transaction raises a data access error. -/
theorem exec_of_access {i : Instr} {s : State} {body : Except Fault State} {a : Word} {c : Access}
    (he : exec i s = transact i s body) (h : i.wellFormed = true)
    (hb : body = .error (.memoryOutOfRange a.toNat .dword c)) :
    FaultsWith s (accessReport i s a c) (exec i s) := by
  rw [he, hb]
  exact faultsWith_enterFault (faultReport_access i s a c) (transact_error h)

/-- What exec can do: commit, or enter a fault from the state before the instruction. -/
theorem exec_cases {i : Instr} {s t : State} (h : exec i s = .next t) :
    Committed s t ∨ ∃ op modrm f, t = enterFault op modrm f s := by
  simp only [exec] at h
  cases i with
  | movRegImm r imm =>
    simp only [execMovRegImm] at h
    rcases transact_cases h with ⟨-, hb⟩ | hf
    · cases hb; exact .inl (((Committed.refl s).setReg r imm).advance _)
    · exact .inr hf
  | movRmReg rm reg =>
    simp only [execMovRmReg] at h
    rcases transact_cases h with ⟨-, hb⟩ | hf
    · obtain ⟨u, hu, ht⟩ := bind_eq_ok.mp hb
      cases ht; exact .inl ((Committed.of_writeLoc hu).advance _)
    · exact .inr hf
  | movRegRm reg rm =>
    simp only [execMovRegRm] at h
    rcases transact_cases h with ⟨-, hb⟩ | hf
    · obtain ⟨v, -, ht⟩ := bind_eq_ok.mp hb
      cases ht; exact .inl (((Committed.refl s).setReg reg v).advance _)
    · exact .inr hf
  | addRmReg rm reg | addRmImm8 rm imm | subRmImm8 rm imm | incRm rm =>
    simp only [execAddRmReg, execAddRmImm8, execSubRmImm8, execIncRm] at h
    rcases transact_cases h with ⟨-, hb⟩ | hf
    · exact .inl (Committed.of_modifyRm hb)
    · exact .inr hf
  | addRegRm reg rm =>
    simp only [execAddRegRm] at h
    rcases transact_cases h with ⟨-, hb⟩ | hf
    · obtain ⟨v, -, ht⟩ := bind_eq_ok.mp hb
      cases ht; exact .inl ((((Committed.refl s).setReg reg _).aluFlags).advance _)
    · exact .inr hf
  | pushReg r | pushImm8 imm | pushImm32 imm | callRel32 rel =>
    simp only [execPushReg, execPushImm8, execPushImm32, execCallRel32] at h
    rcases transact_cases h with ⟨-, hb⟩ | hf
    · obtain ⟨u, hu, ht⟩ := bind_eq_ok.mp hb
      cases ht; exact .inl ((Committed.of_push hu).of_same rfl rfl rfl rfl)
    · exact .inr hf
  | popReg r | ret =>
    simp only [execPopReg, execRet] at h
    rcases transact_cases h with ⟨-, hb⟩ | hf
    · obtain ⟨⟨v, u⟩, hu, ht⟩ := bind_eq_ok.mp hb
      cases ht; exact .inl ((Committed.of_pop hu).of_same rfl rfl rfl rfl)
    · exact .inr hf
  | leave =>
    simp only [execLeave] at h
    rcases transact_cases h with ⟨-, hb⟩ | hf
    · obtain ⟨⟨v, u⟩, hu, ht⟩ := bind_eq_ok.mp hb
      cases ht
      obtain ⟨w, -, hw⟩ := bind_eq_ok.mp hu
      cases hw
      exact .inl ((Committed.refl s).of_same rfl rfl rfl rfl)
    · exact .inr hf
  | jmpRel8 rel | jmpRel32 rel =>
    simp only [execJmpRel8, execJmpRel32] at h
    rcases transact_cases h with ⟨-, hb⟩ | hf
    · cases hb; exact .inl ((Committed.refl s).setPc _)
    · exact .inr hf

/-- A fault of a failed decode is a fault entry. -/
theorem fetchFault_eq (s : State) (e : DecodeError) :
    ∃ op modrm f, fetchFault s e = enterFault op modrm f s := by
  cases e <;> exact ⟨_, _, _, rfl⟩

/-- A step whose decode fails enters that fault. -/
theorem step_of_decode_error {s : State} {e : DecodeError} (hr : s.runState = .running)
    (h : decode (fetchWindow s) = .error e) : step s = .next (fetchFault s e) := by
  simp [step, hr, h]

/-- What step can do (30_encoding.md R83). -/
theorem step_cases {s t : State} (h : step s = .next t) :
    (s.runState ≠ .running ∧ t = s) ∨
    (s.runState = .running ∧ ∃ i, decode (fetchWindow s) = .ok i ∧ exec i s = .next t) ∨
    (s.runState = .running ∧ ∃ e, decode (fetchWindow s) = .error e ∧ t = fetchFault s e) := by
  unfold step at h
  cases hr : s.runState with
  | running =>
    rw [hr] at h
    cases hd : decode (fetchWindow s) with
    | ok i => rw [hd] at h; exact .inr (.inl ⟨rfl, i, rfl, h⟩)
    | error e =>
      rw [hd] at h
      simp only [Host.Outcome.next.injEq] at h
      exact .inr (.inr ⟨rfl, e, rfl, h.symm⟩)
  | stopped | faulted =>
    rw [hr] at h
    simp only [Host.Outcome.next.injEq] at h
    exact .inl ⟨by simp, h.symm⟩

end Sys2Proof.Machine
end

