-- ==== Sys2Proof/Laws/Run.lean ====
section
/-! SUPPORT. What a step request and the run loop can do, said once (60_exceptions.md R220, 70_reset_and_hazards.md R242). -/

namespace Sys2Proof.Machine

/-- A step request of a RUNNING core takes the step, and leaves the core RUNNING or FAULTED. -/
theorem hostStep_of_running {s t : State} (hr : s.runState = .running) (h : step s = .next t) :
    (hostStep s).1 = t ∧ (t.runState = .running ∨ t.runState = .faulted ∧ t.fault.legal) := by
  refine ⟨?_, ?_⟩
  · simp only [hostStep, hr, h]
    split <;> rfl
  · rcases step_cases h with ⟨hn, -⟩ | ⟨-, i, -, he⟩ | ⟨-, e, -, rfl⟩
    · exact absurd hr hn
    · rcases exec_cases he with hc | ⟨_, _, _, rfl⟩
      · exact .inl (hc.runState.trans hr)
      · exact .inr ⟨rfl, faultReport_legal _ _ _ _⟩
    · obtain ⟨_, _, _, he⟩ := fetchFault_eq s e
      rw [he]
      exact .inr ⟨rfl, faultReport_legal _ _ _ _⟩

section
variable {continues : Nat → State → Bool} {taken : Nat} {s : State}

/-- The loop goes on exactly where R242's condition holds. -/
theorem runEnd?_eq_none : runEnd? continues taken s = none ↔ s.runState = .running ∧ continues taken s = true := by
  unfold runEnd?
  cases s.runState <;> simp

/-- An end that the test finds is faulted exactly in FAULTED, and never unfinished. -/
theorem runEnd?_eq_some {e : RunEnd} (h : runEnd? continues taken s = some e) :
    e ≠ .unfinished ∧ (e = .faulted ↔ s.runState = .faulted) := by
  unfold runEnd? at h
  cases hr : s.runState <;> simp only [hr] at h
  · split at h <;> cases h
    simp
  · cases h
    simp
  · cases h
    simp

theorem runLoop_of_end {e : RunEnd} (h : runEnd? continues taken s = some e) (fuel : Nat) :
    runLoop continues fuel taken s = (s, e) := by
  cases fuel <;> simp [runLoop, h]

theorem runLoop_zero (h : runEnd? continues taken s = none) :
    runLoop continues 0 taken s = (s, .unfinished) := by simp [runLoop, h]

theorem runLoop_succ (h : runEnd? continues taken s = none) (fuel : Nat) :
    runLoop continues (fuel + 1) taken s = runLoop continues fuel (taken + 1) (hostStep s).1 := by
  simp [runLoop, h]

/-- A run that has ended stays ended, however many more requests are allowed. -/
theorem runLoop_of_le {n m : Nat} (h : n ≤ m) (hn : (runLoop continues n taken s).2 ≠ .unfinished) :
    runLoop continues m taken s = runLoop continues n taken s := by
  induction n generalizing m taken s with
  | zero =>
    cases he : runEnd? continues taken s with
    | some e => rw [runLoop_of_end he, runLoop_of_end he]
    | none => exact absurd (by rw [runLoop_zero he]) hn
  | succ n ih =>
    cases he : runEnd? continues taken s with
    | some e => rw [runLoop_of_end he, runLoop_of_end he]
    | none =>
      obtain ⟨k, rfl⟩ : ∃ k, m = k + 1 := ⟨m - 1, by omega⟩
      rw [runLoop_succ he] at hn ⊢
      rw [runLoop_succ he]
      exact ih (by omega) hn
end

end Sys2Proof.Machine
end

