-- ==== Sys2Proof/Machine/Listing.lean ====
section
/-! DEFINITION. The assembler syntax of 30_encoding.md R82: Intel syntax with the IA-32 mnemonics, destination first, branch targets as absolute addresses. It carries no semantics (92_eei_decisions.md D21): nothing of the machine uses it. -/

namespace Sys2Proof.Machine

/-- A register's name (10_state.md R21), in lower case as R82 writes it. -/
def regName : Reg → String
  | .eax => "eax"
  | .ecx => "ecx"
  | .edx => "edx"
  | .ebx => "ebx"
  | .esp => "esp"
  | .ebp => "ebp"
  | .esi => "esi"
  | .edi => "edi"

/-- An unsigned number in hexadecimal. -/
def hexText (n : Nat) : String := "0x" ++ String.ofList (Nat.toDigits 16 n)

/-- A two's-complement number in hexadecimal, its sign written before it, as the vectors of 95_test_vectors.md write imm8. -/
def signedHexText (n : Int) : String :=
  if n < 0 then "-" ++ hexText n.natAbs else hexText n.natAbs

/-- A displacement after a base register, with its sign. -/
def dispText (d : Int) : String :=
  if d < 0 then "-" ++ hexText d.natAbs else "+" ++ hexText d.natAbs

/-- An r/m operand: a register, or `dword` with the address in brackets. -/
def rmText : RM → String
  | .reg r => regName r
  | .mem b => "dword [" ++ regName b ++ "]"
  | .memDisp8 b d => "dword [" ++ regName b ++ dispText d.toInt ++ "]"
  | .memDisp32 b d => "dword [" ++ regName b ++ dispText d.toInt ++ "]"

/-- The absolute target of a relative branch at `pc` (R82: the encoded field is `target - (pc + len)`). -/
def branchText (pc : Word) (len : Nat) (rel : Word) : String :=
  hexText (pc + BitVec.ofNat 32 len + rel).toNat

/-- The text of the instruction at address `pc` (R82). -/
def listing (pc : Word) : Instr → String
  | .movRegImm r imm => "mov " ++ regName r ++ ", " ++ hexText imm.toNat
  | .movRmReg rm reg => "mov " ++ rmText rm ++ ", " ++ regName reg
  | .movRegRm reg rm => "mov " ++ regName reg ++ ", " ++ rmText rm
  | .addRmReg rm reg => "add " ++ rmText rm ++ ", " ++ regName reg
  | .addRegRm reg rm => "add " ++ regName reg ++ ", " ++ rmText rm
  | .addRmImm8 rm imm => "add " ++ rmText rm ++ ", " ++ signedHexText imm.toInt
  | .subRmImm8 rm imm => "sub " ++ rmText rm ++ ", " ++ signedHexText imm.toInt
  | .incRm rm => "inc " ++ rmText rm
  | .pushReg r => "push " ++ regName r
  | .popReg r => "pop " ++ regName r
  | .pushImm8 imm => "push " ++ signedHexText imm.toInt
  | .pushImm32 imm => "push " ++ hexText imm.toNat
  | .callRel32 rel => "call " ++ branchText pc 5 rel
  | .ret => "ret"
  | .leave => "leave"
  | .jmpRel8 rel => "jmp short " ++ branchText pc 2 (sext32 rel)
  | .jmpRel32 rel => "jmp " ++ branchText pc 5 rel

end Sys2Proof.Machine
end

