-- ==== Sys2Proof/Tests/Slice0.lean ====
section
/-! SUPPORT. Tests: expected results are those of spec/95_test_vectors.md (V<n>, E<n>) or are written out from the encodings of 30_encoding.md, and witnesses that the hypotheses of the statements can be met. -/

namespace Sys2Proof.Tests

open Sys2Proof.Machine

/-! ### Well-formedness (R65, R69) -/

theorem test_wf_mod0_esp_refused : (Instr.incRm (.mem .esp)).wellFormed = false := by decide
theorem test_wf_mod0_ebp_refused : (Instr.movRegRm .eax (.mem .ebp)).wellFormed = false := by decide
theorem test_wf_mod1_esp_refused : (Instr.addRmImm8 (.memDisp8 .esp 4#8) 1#8).wellFormed = false := by decide
theorem test_wf_mod2_esp_refused : (Instr.movRmReg (.memDisp32 .esp 0#32) .eax).wellFormed = false := by decide
theorem test_wf_register_esp_accepted : (Instr.movRegRm .eax (.reg .esp)).wellFormed = true := by decide
theorem test_wf_mod1_ebp_accepted : (Instr.movRegRm .eax (.memDisp8 .ebp 0#8)).wellFormed = true := by decide

/-! ### Decoding: a word of every constructor, from the vector named -/

/-- V26: `B8`+4. -/
theorem test_decode_movRegImm : decode [0xBC#8, 0x00#8, 0x08#8, 0x00#8, 0x00#8] = .ok (.movRegImm .esp 0x800#32) := by decide
/-- V32. -/
theorem test_decode_movRmReg :
    decode [0x89#8, 0x80#8, 0xFF#8, 0xFF#8, 0xFF#8, 0xFF#8] = .ok (.movRmReg (.memDisp32 .eax 0xFFFFFFFF#32) .eax) := by decide
/-- V2. -/
theorem test_decode_movRegRm : decode [0x8B#8, 0x45#8, 0xFC#8] = .ok (.movRegRm .eax (.memDisp8 .ebp 0xFC#8)) := by decide
/-- V34. -/
theorem test_decode_addRmReg : decode [0x01#8, 0xC8#8] = .ok (.addRmReg (.reg .eax) .ecx) := by decide
/-- V36. -/
theorem test_decode_addRegRm : decode [0x03#8, 0xD1#8] = .ok (.addRegRm .edx (.reg .ecx)) := by decide
/-- V47. -/
theorem test_decode_addRmImm8 :
    decode [0x83#8, 0x80#8, 0x00#8, 0x01#8, 0x00#8, 0x00#8, 0xFF#8] = .ok (.addRmImm8 (.memDisp32 .eax 0x100#32) 0xFF#8) := by decide
/-- V44. -/
theorem test_decode_subRmImm8 : decode [0x83#8, 0xEC#8, 0x10#8] = .ok (.subRmImm8 (.reg .esp) 0x10#8) := by decide
/-- V51. -/
theorem test_decode_incRm : decode [0xFF#8, 0x45#8, 0x08#8] = .ok (.incRm (.memDisp8 .ebp 8#8)) := by decide
/-- V59. -/
theorem test_decode_pushReg : decode [0x55#8] = .ok (.pushReg .ebp) := by decide
/-- V56. -/
theorem test_decode_popReg : decode [0x59#8] = .ok (.popReg .ecx) := by decide
/-- V61. -/
theorem test_decode_pushImm8 : decode [0x6A#8, 0xFF#8] = .ok (.pushImm8 0xFF#8) := by decide
/-- V64. -/
theorem test_decode_pushImm32 : decode [0x68#8, 0x78#8, 0x56#8, 0x34#8, 0x12#8] = .ok (.pushImm32 0x12345678#32) := by decide
/-- V70. -/
theorem test_decode_callRel32 : decode [0xE8#8, 0x10#8, 0x00#8, 0x00#8, 0x00#8] = .ok (.callRel32 0x10#32) := by decide
/-- V73. -/
theorem test_decode_ret : decode [0xC3#8] = .ok .ret := by decide
/-- V74. -/
theorem test_decode_leave : decode [0xC9#8] = .ok .leave := by decide
/-- V79. -/
theorem test_decode_jmpRel8 : decode [0xEB#8, 0x80#8] = .ok (.jmpRel8 0x80#8) := by decide
/-- V82. -/
theorem test_decode_jmpRel32 : decode [0xE9#8, 0x00#8, 0xFF#8, 0xFF#8, 0xFF#8] = .ok (.jmpRel32 0xFFFFFF00#32) := by decide
/-- The same bit by bit, `reg` and `rm` told apart: 8B, mod 10, reg 111, rm 011, disp32. -/
theorem test_decode_fields :
    decode [0b10001011#8, 0b10111011#8, 0b00000100#8, 0b00000011#8, 0b00000010#8, 0b00000001#8] =
      .ok (.movRegRm .edi (.memDisp32 .ebx 0x01020304#32)) := by decide
/-- V15, V18, V20. -/
theorem test_decode_rejects :
    decode [0x90#8] = .error (.unsupportedOpcode 0x90#8) ∧
    decode [0xFF#8, 0xF0#8] = .error (.unsupportedGroupSelector 0xFF#8 0xF0#8) ∧
    decode [0x83#8, 0x0C#8, 0x24#8, 0x01#8] = .error (.unsupportedAddressing 0x83#8 0x0C#8) := by decide
/-- The table's words: `83 /5 ib` and `E8 cd` with zero operand bits. -/
theorem test_decodeTableWord :
    decodeTableWord 16 0x8328 = some (.subRmImm8 (.mem .eax) 0#8) ∧
    decodeTableWord 8 0xE8 = some (.callRel32 0#32) := by decide

/-! ### One step each (section 2 of 95_test_vectors.md) -/

/-- The start state of section 0 with the bytes at `pc`. -/
def start (pc : Word) (code : List Byte) : State :=
  { State.reset with pc := pc, mem := Memory.writeBytes [] pc.toNat code }

/-- Bytes added to a state's memory. -/
def put (s : State) (a : Nat) (bs : List Byte) : State := { s with mem := s.mem.writeBytes a bs }

/-- The next state of a step. -/
def stepped (s : State) : Option State :=
  match step s with
  | .next t => some t
  | .fault _ => none
  | .refused _ => none

/-- What a step leaves in a register, a word of memory and `pc`. -/
def seen (r : Reg) (a : Nat) (s : State) : Option (Word × Word × Word) :=
  (stepped s).map fun t => (t.reg r, t.wordAt a, t.pc)

/-- What a step leaves in the fault registers, ESP and `pc`. -/
def reported (s : State) : Option (FaultRegs × Word × Word) :=
  (stepped s).map fun t => (t.fault, t.reg .esp, t.pc)

/-- V27. -/
theorem test_movRegImm :
    seen .edi 0 (start 0x100#32 [0xBF#8, 0xFF#8, 0xFF#8, 0xFF#8, 0xFF#8]) = some (0xFFFFFFFF#32, 0#32, 0x105#32) := by decide
/-- V29. -/
theorem test_movRmReg :
    seen .ecx 0x200 (((start 0x100#32 [0x89#8, 0x08#8]).setReg .eax 0x200#32).setReg .ecx 0xA1B2C3D4#32) =
      some (0xA1B2C3D4#32, 0xA1B2C3D4#32, 0x102#32) := by decide
/-- V6: the effective address wraps. -/
theorem test_movRegRm_wraps :
    seen .eax 1 (put ((start 0x100#32 [0x8B#8, 0x40#8, 0x02#8]).setReg .eax 0xFFFFFFFF#32) 1 [0xAA#8, 0xBB#8, 0xCC#8, 0xDD#8]) =
      some (0xDDCCBBAA#32, 0xDDCCBBAA#32, 0x103#32) := by decide
/-- V8: a read across the end of memory. -/
theorem test_movRegRm_out_of_range :
    reported ((start 0x100#32 [0x8B#8, 0x00#8]).setReg .eax 0xFFE#32) =
      some (⟨4#8, 0x100#32, 0x8B#8, 0x00#8, 0xFFE#32, 4#3, 1#2⟩, 0x800#32, 0x100#32) := by decide
/-- V37. -/
theorem test_addRmReg_memory :
    seen .eax 0x200 (put (((start 0x100#32 [0x01#8, 0x03#8]).setReg .eax 0x10#32).setReg .ebx 0x200#32) 0x200
      [0xF8#8, 0xFF#8, 0xFF#8, 0xFF#8]) = some (0x10#32, 8#32, 0x102#32) := by decide
/-- V52: the read is checked first. -/
theorem test_addRmReg_out_of_range :
    reported ((start 0x100#32 [0x01#8, 0x00#8]).setReg .eax 0xFFD#32) =
      some (⟨4#8, 0x100#32, 0x01#8, 0x00#8, 0xFFD#32, 4#3, 1#2⟩, 0x800#32, 0x100#32) := by decide
/-- V38. -/
theorem test_addRegRm :
    seen .eax 0x200 (put (((start 0x100#32 [0x03#8, 0x45#8, 0xF8#8]).setReg .eax 1#32).setReg .ebp 0x208#32) 0x200
      [0xFF#8, 0xFF#8, 0xFF#8, 0x7F#8]) = some (0x80000000#32, 0x7FFFFFFF#32, 0x103#32) := by decide
/-- V40. -/
theorem test_addRmImm8_sign :
    seen .eax 0 (start 0x100#32 [0x83#8, 0xC0#8, 0x80#8]) = some (0xFFFFFF80#32, 0#32, 0x103#32) := by decide
/-- V24: the immediate's fetch fails after the group check. -/
theorem test_addRmImm8_cut_off :
    reported (start 0xFFE#32 [0x83#8, 0xC0#8]) =
      some (⟨4#8, 0xFFE#32, 0x83#8, 0xC0#8, 0x1000#32, 1#3, 0#2⟩, 0x800#32, 0xFFE#32) := by decide
/-- V43. -/
theorem test_subRmImm8_sign :
    seen .eax 0 (start 0x100#32 [0x83#8, 0xE8#8, 0x80#8]) = some (0x80#32, 0#32, 0x103#32) := by decide
/-- V45. -/
theorem test_subRmImm8_memory :
    seen .eax 0x200 (put ((start 0x100#32 [0x83#8, 0x28#8, 0x05#8]).setReg .eax 0x200#32) 0x200 [0x03#8]) =
      some (0x200#32, 0xFFFFFFFE#32, 0x103#32) := by decide
/-- E5, V48: the wrap, with no flag side effect under `preserve`. -/
theorem test_incRm_wraps :
    (stepped ({ start 0x100#32 [0xFF#8, 0xC0#8] with flags := 0x202#32 }.setReg .eax 0xFFFFFFFF#32)).map
      (fun t => (t.reg .eax, t.flags, t.pc)) = some (0#32, 0x202#32, 0x102#32) := by decide
/-- V50: the carry crosses bytes. -/
theorem test_incRm_memory :
    seen .eax 0x200 (put ((start 0x100#32 [0xFF#8, 0x00#8]).setReg .eax 0x200#32) 0x200 [0xFF#8]) =
      some (0x200#32, 0x100#32, 0x102#32) := by decide
/-- V57: the old ESP is pushed. -/
theorem test_pushReg_esp : seen .esp 0x7FC (start 0x100#32 [0x54#8]) = some (0x7FC#32, 0x800#32, 0x101#32) := by decide
/-- V66: the address wraps and the push faults. -/
theorem test_pushReg_out_of_range :
    reported ((start 0x100#32 [0x50#8]).setReg .esp 2#32) =
      some (⟨4#8, 0x100#32, 0x50#8, 0#8, 0xFFFFFFFE#32, 4#3, 2#2⟩, 2#32, 0x100#32) := by decide
/-- V58: the popped value wins. -/
theorem test_popReg_esp :
    seen .esp 0x7FC (put ((start 0x100#32 [0x5C#8]).setReg .esp 0x7FC#32) 0x7FC [0x78#8, 0x56#8, 0x34#8, 0x12#8]) =
      some (0x12345678#32, 0x12345678#32, 0x101#32) := by decide
/-- V63. -/
theorem test_pushImm8_sign :
    seen .esp 0x7FC (start 0x100#32 [0x6A#8, 0x80#8]) = some (0x7FC#32, 0xFFFFFF80#32, 0x102#32) := by decide
/-- V64. -/
theorem test_pushImm32 :
    seen .esp 0x7FC (start 0x100#32 [0x68#8, 0x78#8, 0x56#8, 0x34#8, 0x12#8]) =
      some (0x7FC#32, 0x12345678#32, 0x105#32) := by decide
/-- V71: a call of itself. -/
theorem test_callRel32 :
    seen .esp 0x7FC (start 0x100#32 [0xE8#8, 0xFB#8, 0xFF#8, 0xFF#8, 0xFF#8]) = some (0x7FC#32, 0x105#32, 0x100#32) := by decide
/-- V73. -/
theorem test_ret :
    seen .esp 0x7FC (put ((start 0x100#32 [0xC3#8]).setReg .esp 0x7FC#32) 0x7FC [0xEF#8, 0xBE#8, 0xAD#8, 0xDE#8]) =
      some (0x800#32, 0xDEADBEEF#32, 0xDEADBEEF#32) := by decide
/-- V74. -/
theorem test_leave :
    seen .esp 0xF8 (put (((start 0x100#32 [0xC9#8]).setReg .ebp 0xF8#32).setReg .esp 0xE0#32) 0xF8 [0x00#8, 0x01#8]) =
      some (0xFC#32, 0x100#32, 0x101#32) := by decide
/-- V75: ESP keeps its old value. -/
theorem test_leave_out_of_range :
    reported (((start 0x100#32 [0xC9#8]).setReg .ebp 0xFFE#32).setReg .esp 0x7F0#32) =
      some (⟨4#8, 0x100#32, 0xC9#8, 0#8, 0xFFE#32, 4#3, 1#2⟩, 0x7F0#32, 0x100#32) := by decide
/-- V81: the target wraps. -/
theorem test_jmpRel8_wraps : seen .eax 0 (start 0#32 [0xEB#8, 0xF0#8]) = some (0#32, 0xF0EB#32, 0xFFFFFFF2#32) := by decide
/-- V82. -/
theorem test_jmpRel32 :
    seen .eax 0 (start 0x100#32 [0xE9#8, 0x00#8, 0xFF#8, 0xFF#8, 0xFF#8]) = some (0#32, 0#32, 5#32) := by decide

/-- V14, E6. -/
theorem test_unsupported_opcode :
    reported (start 0x100#32 [0x0F#8, 0x0B#8]) =
      some (⟨1#8, 0x100#32, 0x0F#8, 0#8, 0#32, 0#3, 0#2⟩, 0x800#32, 0x100#32) := by decide
/-- V17. -/
theorem test_unsupported_group_selector :
    reported (start 0x100#32 [0x83#8, 0xC8#8, 0x01#8]) =
      some (⟨2#8, 0x100#32, 0x83#8, 0xC8#8, 0#32, 0#3, 0#2⟩, 0x800#32, 0x100#32) := by decide
/-- V10. -/
theorem test_unsupported_addressing :
    reported (start 0x100#32 [0x8B#8, 0x04#8, 0x24#8]) =
      some (⟨3#8, 0x100#32, 0x8B#8, 0x04#8, 0#32, 0#3, 0#2⟩, 0x800#32, 0x100#32) := by decide
/-- V22. -/
theorem test_fetch_cut_off :
    reported (start 0xFFD#32 [0xB8#8, 0x01#8, 0x02#8]) =
      some (⟨4#8, 0xFFD#32, 0xB8#8, 0#8, 0xFFE#32, 4#3, 0#2⟩, 0x800#32, 0xFFD#32) := by decide

/-- R81, check 5 before check 6: `83 /1` with a disp32 cut off by the end of memory fails at the displacement's fetch. -/
theorem test_group_displacement_cut_off :
    reported (start 0xFFD#32 [0x83#8, 0x88#8, 0x01#8]) =
      some (⟨4#8, 0xFFD#32, 0x83#8, 0x88#8, 0xFFF#32, 4#3, 0#2⟩, 0x800#32, 0xFFD#32) := by decide

/-- V54: MOV keeps `FLAGS` under `havoc`. -/
theorem test_flags_mov_havoc :
    (stepped { start 0x100#32 [0x89#8, 0xC1#8] with flags := 0x202#32, params := ⟨0x1000, .havoc⟩ }).map State.flags =
      some 0x202#32 := by decide
/-- R112 and R27 under `havoc`, as V53: `03 C1` leaves a free value in `FLAGS`, and the next one is drawn after it. -/
theorem test_flags_add_havoc :
    (stepped { start 0x100#32 [0x03#8, 0xC1#8] with params := ⟨0x1000, .havoc⟩, draws := 7 }).map
      (fun t => (t.flags, t.draws)) = some (Config.freeFlags 7, 8) := rfl

/-- The table's word placed by the loader's stand-in is what the next step runs: `6A 7F` (V62). -/
theorem test_withFetchWord :
    seen .esp 0x7FC (State.reset.withFetchWord 16 0x7F6A) = some (0x7FC#32, 0x7F#32, 2#32) := by decide

/-! ### The host and the listing -/

/-- V86, V87. -/
theorem test_host_refusals :
    host State.reset (.read (.writable (.reg 8))) = (State.reset, .registerIndexOutOfRange 8) ∧
    host State.reset (.write (.mem 0xFFD .dword) 1#32) = (State.reset, .memoryOutOfRange 0xFFD .dword) := by decide
/-- R242: a policy of one step ends the run as stopped, also where one request is all the loop may make; with none left and
the policy going on, the run is unfinished. -/
theorem test_run_loop :
    (runLoop (fun k _ => k < 1) 1 0 (start 0x100#32 [0xEB#8, 0xFE#8])).2 = .stopped ∧
    (runLoop (fun _ _ => true) 0 0 (start 0x100#32 [0xEB#8, 0xFE#8])).2 = .unfinished ∧
    (runLoop (fun _ _ => true) 0 0 { State.reset with runState := .stopped }).2 = .stopped := by decide
/-- V2, V40, V70, V76. -/
theorem test_listing :
    listing 0x100#32 (.movRegRm .eax (.memDisp8 .ebp 0xFC#8)) = "mov eax, dword [ebp-0x4]" ∧
    listing 0x100#32 (.addRmImm8 (.reg .eax) 0x80#8) = "add eax, -0x80" ∧
    listing 0x100#32 (.callRel32 0x10#32) = "call 0x115" ∧
    listing 0x100#32 (.jmpRel8 0xFE#8) = "jmp short 0x100" := by decide

/-! ### Witnesses: the hypotheses of the statements can be met, clause by clause, at their boundaries -/

/-- A state with ESP, EBP and EBX at one address. -/
def stackAt (a : Word) : State := ((State.reset.setReg .esp a).setReg .ebp a).setReg .ebx a

/-- A state whose memory ends with the given bytes, at `pc`. -/
def endsWith (bs : List Byte) : State := start (BitVec.ofNat 32 (0x1000 - bs.length)) bs

/-- DecodeOfEncodeIsTheInstruction; `rm.wellFormed` in the statements of ModRM forms. -/
theorem witness_wellFormed :
    (Instr.addRmImm8 (.memDisp32 .edi 0xFFFFFFFF#32) 0x80#8).wellFormed = true ∧ (RM.mem .ebx).wellFormed = true ∧
    (RM.reg .esp).wellFormed = true := by decide
/-- EncodeOfDecodeIsTheBytesRead, LengthIsFixedByOpcodeAndMod. -/
theorem witness_decode_ok : decode [0x83#8, 0x45#8, 0xFC#8, 0x01#8] = .ok (.addRmImm8 (.memDisp8 .ebp 0xFC#8) 1#8) := by decide
/-- UnmappedOpcodesAreRejectedByName. -/
theorem witness_opcodes : 0x02#8 ∉ mappedOpcodes ∧ 0x01#8 ∈ mappedOpcodes ∧ 0xFE#8 ∉ mappedOpcodes ∧ 0xFF#8 ∈ mappedOpcodes := by decide
/-- ModrmOperandIsRegisterOrBasePlusDisplacement: mod 3 with rm 4, mod 0 with rm 6, mod 1 and mod 2 with rm 5. -/
theorem witness_modrm :
    modOf 0xC4#8 = 3#2 ∧ (modOf 0x06#8 = 0#2 ∧ rmOf 0x06#8 ≠ 4#3 ∧ rmOf 0x06#8 ≠ 5#3) ∧
    (modOf 0x45#8 = 1#2 ∧ rmOf 0x45#8 ≠ 4#3) ∧ (modOf 0x85#8 = 2#2 ∧ rmOf 0x85#8 ≠ 4#3) := by decide
/-- GroupSelectorsChooseTheInstruction: one selector for each clause. -/
theorem witness_selectors :
    (RM.memDisp8 .ebp 0#8).wellFormed = true ∧ ((4#3 : BitVec 3) ≠ 0#3 ∧ (4#3 : BitVec 3) ≠ 5#3) ∧ (7#3 : BitVec 3) ≠ 0#3 := by decide
/-- StepRunsTheDecodedInstruction. -/
theorem witness_step_runs :
    (start 0x100#32 [0xC9#8]).runState = .running ∧ decode (fetchWindow (start 0x100#32 [0xC9#8])) = .ok .leave := by decide
/-- EncodedInstructionAtPcIsExecuted: the longest instruction, in the last bytes of memory. -/
theorem witness_codeAt :
    let i := Instr.addRmImm8 (.memDisp32 .eax 0x100#32) 0xFF#8
    i.wellFormed = true ∧ (endsWith (encode i)).runState = .running ∧ CodeAt (endsWith (encode i)) (encode i) :=
  ⟨by decide, by decide, by decide, by decide⟩
/-- StepRequestWhenNotRunningChangesNothing. -/
theorem witness_not_running :
    ({ State.reset with runState := .stopped } : State).runState ≠ .running ∧
    ({ State.reset with runState := .faulted } : State).runState ≠ .running := by decide
/-- OpcodeFetchOutsideMemoryFaults and every OpcodeFetchFaults clause: `pc` at `MEM_SIZE`. -/
theorem witness_opcode_fetch :
    (start 0x1000#32 []).runState = .running ∧ (start 0x1000#32 []).params.memSize ≤ (start 0x1000#32 []).pc.toNat := by decide
/-- UnsupportedOpcodeFaults: the last byte of memory. -/
theorem witness_unsupported_opcode :
    let s := endsWith [0x90#8]
    s.runState = .running ∧ s.pc.toNat < s.params.memSize ∧ s.byteAt s.pc.toNat ∉ mappedOpcodes := by decide
/-- UnsupportedGroupSelectorFaults: each group. -/
theorem witness_group_selector :
    (RM.memDisp8 .ebp 1#8).wellFormed = true ∧
    (let b := modrmByte (RM.memDisp8 .ebp 1#8).modBits 7#3 (RM.memDisp8 .ebp 1#8).rmBits
     CodeAt (endsWith [0x83#8, b, 1#8]) (0x83#8 :: b :: (RM.memDisp8 .ebp 1#8).dispBytes)) ∧
    (let b := modrmByte (RM.reg .eax).modBits 1#3 (RM.reg .eax).rmBits
     CodeAt (endsWith [0xFF#8, b]) (0xFF#8 :: b :: (RM.reg .eax).dispBytes)) :=
  ⟨by decide, ⟨by decide, by decide⟩, by decide, by decide⟩
/-- UnsupportedGroupSelectorFaults, its second clause: memory ends before the opcode, the ModRM byte and each byte of the
displacement. -/
theorem witness_group_selector_cut_off :
    let rm := RM.memDisp32 .eax 1#32
    let bytes := 0xFF#8 :: modrmByte rm.modBits 7#3 rm.rmBits :: rm.dispBytes
    rm.wellFormed = true ∧ ∀ n < 1 + rm.len,
      CodeAt (endsWith (bytes.take n)) (bytes.take n) ∧
      (endsWith (bytes.take n)).pc.toNat + n = (endsWith (bytes.take n)).params.memSize := by
  unfold CodeAt; decide
/-- UnsupportedAddressingFaults and the second clause of DecodeErrorsFault: both rejected forms, at the end of memory. -/
theorem witness_rejected_modrm :
    RejectedModrm 0x84#8 ∧ RejectedModrm 0x3D#8 ∧ CodeAt (endsWith [0x8B#8, 0x84#8]) [0x8B#8, 0x84#8] ∧
    ∀ op ∈ [0x01#8, 0x03#8, 0x89#8, 0x8B#8, 0x83#8, 0xFF#8], CodeAt (endsWith [op, 0x3D#8]) [op, 0x3D#8] :=
  ⟨.inl (by decide), .inr (by decide), ⟨by decide, by decide⟩, by unfold CodeAt; decide⟩
/-- CutOffFaults, the first clause of DecodeErrorsFault: before the opcode, the ModRM byte, the displacement and the immediate. -/
theorem witness_cut_off :
    let i := Instr.addRmImm8 (.memDisp32 .eax 0x100#32) 0xFF#8
    ∀ n < i.length, n < i.length ∧ CodeAt (endsWith ((encode i).take n)) ((encode i).take n) ∧
      (endsWith ((encode i).take n)).pc.toNat + n = (endsWith ((encode i).take n)).params.memSize := by
  unfold CodeAt; decide
/-- FieldFetchFaults after an opcode byte: both widths cross the end of memory after its last byte. -/
theorem witness_field_fetch :
    ∀ op ∈ [0xB8#8, 0x6A#8, 0x68#8, 0xE8#8, 0xEB#8, 0xE9#8],
      CodeAt (endsWith [op]) [op] ∧ (endsWith [op]).params.memSize < (endsWith [op]).pc.toNat + 1 + 1 := by
  unfold CodeAt; decide
/-- FieldFetchFaults after a group's ModRM byte (V24, and `83 E8`). -/
theorem witness_field_fetch_group :
    ∀ b ∈ [0xC0#8, 0xE8#8], CodeAt (endsWith [0x83#8, b]) [0x83#8, b] ∧
      (endsWith [0x83#8, b]).params.memSize < (endsWith [0x83#8, b]).pc.toNat + 2 + 1 := by
  unfold CodeAt; decide
/-- FaultEntryIsPrecise, OnlyFaultEntryAndResetWriteTheFaultRegisters: a step that enters a fault. -/
theorem witness_fault_entry :
    let s := endsWith [0x90#8]
    s.runState = .running ∧ (stepped s).map State.runState = some .faulted ∧ (host s .step).1.fault ≠ s.fault := by decide
/-- OnlyFaultEntryAndResetWriteTheFaultRegisters: a reset of a FAULTED machine. -/
theorem witness_reset_clears :
    let s : State := { State.reset with runState := .faulted, fault := ⟨1#8, 0#32, 0x90#8, 0#8, 0#32, 0#3, 0#2⟩ }
    (host s (.reset ⟨s.regs, 0x800#32, 0#32, 0#32, []⟩)).1.fault ≠ s.fault := by decide
/-- FaultedIsStickyUntilReset: every other request in one list. -/
theorem witness_sticky :
    ({ State.reset with runState := .faulted } : State).runState = .faulted ∧
    ∀ r ∈ [HostRequest.step, .stop, .resume, .read .faultKind, .write .pc 0#32], ∀ init, r ≠ .reset init := by
  refine ⟨rfl, fun r hr init => ?_⟩
  simp only [List.mem_cons, List.not_mem_nil, or_false] at hr
  rcases hr with rfl | rfl | rfl | rfl | rfl <;> simp
/-- StepKeepsTheStateLegal, HostRequestsKeepTheStateLegal: memory at its boundary cell, and a step from there. -/
theorem witness_inv : Inv (endsWith [0xC9#8]) ∧ (stepped (endsWith [0xC9#8])).isSome = true :=
  ⟨⟨⟨by decide, by decide⟩, by decide, by unfold Memory.within; decide, rfl⟩, by decide⟩
/-- The frames of all instructions: exec answers a next state, RUNNING, with a store and without, under both policies. -/
theorem witness_frames :
    (∃ t, exec (.pushReg .eax) State.reset = .next t ∧ t.runState = .running ∧ storedAt (.pushReg .eax) State.reset = some 0x7FC#32) ∧
    (∃ t, exec .ret State.reset = .next t ∧ t.runState = .running ∧ storedAt .ret State.reset = none) ∧
    (∃ t, exec (.incRm (.reg .eax)) { State.reset with params := ⟨0x1000, .havoc⟩ } = .next t ∧ t.runState = .running) ∧
    (∃ t, exec .ret (stackAt 0xFFD#32) = .next t ∧ t.runState ≠ .running) ∧
    memWrite32 0xFFC 0#32 State.reset = .ok State.reset :=
  ⟨⟨_, rfl, rfl, rfl⟩, ⟨_, rfl, rfl, rfl⟩, ⟨_, rfl, rfl⟩, ⟨_, rfl, by decide⟩, rfl⟩
/-- FlagsAreNotObservableByPrograms. -/
theorem witness_step_next : (stepped (start 0x100#32 [0xFF#8, 0xC0#8])).isSome = true := by decide
/-- The clauses on an r/m operand: a register; the last word of memory; the first address that is out of range; the same
for an address near 2^32. -/
theorem witness_rm_operand :
    resolve (.reg .esp) State.reset = .reg .esp ∧
    (resolve (.mem .ebx) (stackAt 0xFFC#32) = .mem 0xFFC#32 ∧ (0xFFC#32).toNat + 4 ≤ (stackAt 0xFFC#32).params.memSize) ∧
    (resolve (.mem .ebx) (stackAt 0xFFD#32) = .mem 0xFFD#32 ∧ (stackAt 0xFFD#32).params.memSize < (0xFFD#32).toNat + 4) ∧
    (resolve (.memDisp8 .ebx 0xFF#8) (stackAt 0#32) = .mem 0xFFFFFFFF#32 ∧
      (stackAt 0#32).params.memSize < (0xFFFFFFFF#32).toNat + 4) := by decide
/-- The clauses on a push (PushDecrementsThenStores, PushReg, PushImm8, PushImm32, Call, PushThenPop, RetAfterCall,
LeaveUndoes): the lowest legal push, the highest, and the two first that are not (V65 to V67). -/
theorem witness_push :
    ((stackAt 4#32).reg .esp - 4#32).toNat + 4 ≤ (stackAt 4#32).params.memSize ∧
    ((stackAt 0x1000#32).reg .esp - 4#32).toNat + 4 ≤ (stackAt 0x1000#32).params.memSize ∧
    (stackAt 3#32).params.memSize < ((stackAt 3#32).reg .esp - 4#32).toNat + 4 ∧
    (stackAt 0x1001#32).params.memSize < ((stackAt 0x1001#32).reg .esp - 4#32).toNat + 4 := by decide
/-- The clauses on a pop (PopLoadsThenIncrements, PopReg, Ret) and on LEAVE: the highest legal one and the first that is not. -/
theorem witness_pop :
    ((stackAt 0xFFC#32).reg .esp).toNat + 4 ≤ (stackAt 0xFFC#32).params.memSize ∧
    (stackAt 0xFFD#32).params.memSize < ((stackAt 0xFFD#32).reg .esp).toNat + 4 ∧
    ((stackAt 0xFFC#32).reg .ebp).toNat + 4 ≤ (stackAt 0xFFC#32).params.memSize ∧
    (stackAt 0xFFD#32).params.memSize < ((stackAt 0xFFD#32).reg .ebp).toNat + 4 ∧ (Reg.eax ≠ .esp) := by decide
/-- LeaveUndoesTheFrameSetUp: a body that changes EAX alone is one of those it speaks of. -/
theorem witness_leave_body (u : State) :
    (u.setReg .eax 1#32).params = u.params ∧ (u.setReg .eax 1#32).reg .ebp = u.reg .ebp ∧
    (u.setReg .eax 1#32).wordAt (u.reg .ebp).toNat = u.wordAt (u.reg .ebp).toNat := ⟨rfl, rfl, rfl⟩
/-- MemReadIsLittleEndianAndChecked, MemWritePlacesTheBytes, MemoryInspectionIsExact, BadHostAccessesAreRefused: the last
byte and word of memory, and the first of each that is out of range. -/
theorem witness_memory :
    0xFFF + 1 ≤ State.reset.params.memSize ∧ State.reset.params.memSize < 0x1000 + 1 ∧
    0xFFC + 4 ≤ State.reset.params.memSize ∧ State.reset.params.memSize < 0xFFD + 4 ∧
    State.reset.params.memSize < 0x1000 + AccessWidth.byte.bytes ∧
    State.reset.params.memSize < 0xFFD + AccessWidth.dword.bytes := by decide
/-- StoreIsSeenByTheNextFetch: the second stored byte is the opcode byte at `pc`. -/
theorem witness_store_fetch :
    ∃ t, memWrite32 0xFF 0x0102C9FF#32 (start 0x100#32 []) = .ok t ∧ 1 < 4 ∧ 0 < maxLength ∧ t.pc.toNat + 0 = 0xFF + 1 :=
  ⟨_, rfl, by decide, by decide, by decide⟩
/-- HostResetSetsTheState: an image as long as a memory of two bytes; a register that is not ESP. -/
theorem witness_host_reset :
    let s : State := { State.reset with params := ⟨2, .preserve⟩ }
    let init : Init := ⟨s.regs, 2#32, 0#32, 0#32, [0xC9#8, 0#8]⟩
    init.image.length = s.params.memSize ∧ 1 < init.image.length ∧ Reg.eax ≠ .esp := by decide
/-- StopAndResumeChangeOnlyTheRunState, RegisterInspectionIsExact, BadHostAccessesAreRefused. -/
theorem witness_run_states :
    ({ State.reset with runState := .faulted } : State).runState = .faulted ∧
    State.reset.runState = .running ∧ ({ State.reset with runState := .stopped } : State).runState = .stopped ∧
    ({ State.reset with runState := .stopped } : State).runState ≠ .running ∧ State.reset.runState ≠ .stopped ∧
    7 < 8 ∧ 8 ≤ 8 := by decide
/-- RunLoopFollowsThePolicyAndReportsFaults: a policy that goes on and one that ends, and the states that end a run. -/
theorem witness_policies :
    State.reset.runState = .running ∧ (fun (k : Nat) (_ : State) => decide (k < 1)) 0 State.reset = true ∧
    (fun (k : Nat) (_ : State) => decide (k < 1)) 1 State.reset = false ∧
    ({ State.reset with runState := .stopped } : State).runState = .stopped ∧
    ({ State.reset with runState := .faulted } : State).runState = .faulted := by decide
/-- RunEndsFaultedOrStoppedOrDiverges: `EB FE` in the last two bytes of memory. -/
theorem witness_diverges :
    (endsWith [0xEB#8, 0xFE#8]).runState = .running ∧ CodeAt (endsWith [0xEB#8, 0xFE#8]) [0xEB#8, 0xFE#8] :=
  ⟨by decide, by decide, by decide⟩
/-- RunLoopFollowsThePolicyAndReportsFaults: `EB FE` commits for ever (V76). -/
theorem witness_safe_run :
    (start 0x100#32 [0xEB#8, 0xFE#8]).runState = .running ∧ SafeRun 2 (start 0x100#32 [0xEB#8, 0xFE#8]) ∧
    ∀ k t, (fun (_ : Nat) (_ : State) => true) k t = true :=
  ⟨rfl, ⟨_, ⟨rfl, rfl, rfl⟩, _, ⟨rfl, rfl, rfl⟩, trivial⟩, fun _ _ => rfl⟩
/-- BootReady (R241): the image of E2 with a stack of 4 bytes. -/
theorem witness_boot_ready :
    BootReady [0x50#8, 0x59#8] 4 0x1000 ⟨State.reset.regs, 0x800#32, 0#32, 0#32, [0x50#8, 0x59#8]⟩ := by
  unfold BootReady; decide

end Sys2Proof.Tests
end

section
/-! The parameters `MEM_SIZE` and `FLAG_POLICY` are constant (00_scope.md R6, 20_memory.md R40): no interaction of the host changes them, so no sequence of them does. -/

namespace Sys2Proof.Machine

/-- A byte write succeeds exactly in range, and changes memory alone. -/
theorem memWrite8_eq_ok {s t : State} {a : Nat} {b : Byte} :
    memWrite8 a b s = .ok t ↔ s.inRange a 1 = true ∧ t = { s with mem := s.mem.writeByte a b } := by
  cases h : s.inRange a 1 <;> simp [memWrite8, h, eq_comm]

/-- An instruction keeps the parameters, whether it commits or faults. -/
theorem exec_params {i : Instr} {s t : State} (h : exec i s = .next t) : t.params = s.params := by
  rcases exec_cases h with hc | ⟨op, modrm, f, rfl⟩
  · exact hc.params
  · exact enterFault_params op modrm f s

@[simp] theorem fetchFault_params (s : State) (e : DecodeError) : (fetchFault s e).params = s.params := by
  obtain ⟨op, modrm, f, he⟩ := fetchFault_eq s e
  rw [he, enterFault_params]

theorem step_params {s t : State} (h : step s = .next t) : t.params = s.params := by
  rcases step_cases h with ⟨-, rfl⟩ | ⟨-, i, -, he⟩ | ⟨-, e, -, rfl⟩
  · rfl
  · exact exec_params he
  · exact fetchFault_params s e

/-- A step request changes nothing, or leaves what the step does (60_exceptions.md R220). -/
theorem hostStep_fst_cases (s : State) : (hostStep s).1 = s ∨ step s = .next (hostStep s).1 := by
  cases hr : s.runState with
  | running =>
    cases h : step s with
    | next t => exact .inr (by rw [(hostStep_of_running hr h).1])
    | fault f | refused r => exact .inl (by simp [hostStep, hr, h])
  | stopped | faulted => exact .inl (by simp [hostStep, hr])

@[simp] theorem hostStep_params (s : State) : (hostStep s).1.params = s.params := by
  rcases hostStep_fst_cases s with h | h
  · rw [h]
  · exact step_params h

@[simp] theorem hostStop_params (s : State) : (hostStop s).params = s.params := by
  unfold hostStop; split <;> rfl

@[simp] theorem hostResume_params (s : State) : (hostResume s).params = s.params := by
  unfold hostResume; split <;> rfl

/-- An inspection write reaches a register, `pc`, `FLAGS` or memory, or is refused (60_exceptions.md R216, R205). -/
@[simp] theorem hostWrite_params (s : State) (v : Word) (l : Writable) : (hostWrite s v l).1.params = s.params := by
  cases l with
  | reg index =>
    simp only [hostWrite]
    cases regOfIndex index <;> rfl
  | pc | flags => rfl
  | mem a width =>
    cases width with
    | byte =>
      simp only [hostWrite]
      cases h : memWrite8 a (byteOfWord v 0) s with
      | ok t => obtain ⟨-, rfl⟩ := memWrite8_eq_ok.mp h; rfl
      | error f => rfl
    | dword =>
      simp only [hostWrite]
      cases h : memWrite32 a v s with
      | ok t => exact (Committed.of_memWrite32 h).params
      | error f => rfl

/-- One interaction of any kind keeps the parameters. -/
@[simp] theorem host_params (s : State) (r : HostRequest) : (host s r).1.params = s.params := by
  cases r with
  | reset init | read l => rfl
  | step => exact hostStep_params s
  | stop => exact hostStop_params s
  | resume => exact hostResume_params s
  | write l v => exact hostWrite_params s v l

/-- Settles O22, by induction on the sequence of interactions. -/
theorem parametersNeverChange : Obligations.ParametersNeverChange := by
  intro s rs
  induction rs generalizing s with
  | nil => rfl
  | cons r rs ih =>
    calc (hostRun (host s r).1 rs).params
      _ = (host s r).1.params := ih _
      _ = s.params := host_params s r

end Sys2Proof.Machine
end

section
/-! Fault entries and the invariant of the state (10_state.md R28, R29; 60_exceptions.md R206, R207): every step keeps the invariant, a fault is precise, and only the fault entry and reset write the fault registers. -/

namespace Sys2Proof.Machine

/-! ### The invariant -/

/-- A word written in range keeps memory inside its capacity (20_memory.md R43, R44). -/
theorem Memory.within_writeWord {m : Memory} {size a : Nat} (v : Word) (ha : a + 4 ≤ size) (h : m.within size) :
    (m.writeWord a v).within size := by
  intro c hc
  rcases Memory.fst_mem_writeBytes hc with ⟨-, hlt⟩ | hm
  · rw [length_bytesOfWord] at hlt
    omega
  · exact h c hm

/-- RUN_STATE and the fault registers stay in agreement where neither is written. -/
theorem State.reportLegal_of_kept {s t : State} (hr : t.runState = s.runState) (hf : t.fault = s.fault)
    (h : s.reportLegal) : t.reportLegal := by
  unfold State.reportLegal at h ⊢
  rwa [hr, hf]

namespace Inv

theorem of_committed {s t : State} (h : Inv s) (hc : Committed s t) : Inv t := by
  obtain ⟨hp, hwf, hin, hrep⟩ := h
  refine ⟨hc.params ▸ hp, ?_, ?_, State.reportLegal_of_kept hc.runState hc.fault hrep⟩
  · rcases hc.mem with hm | ⟨a, v, -, hm⟩
    · rwa [hm]
    · rw [hm]
      exact Memory.wf_writeWord a v hwf
  · rw [hc.params]
    rcases hc.mem with hm | ⟨a, v, hr, hm⟩
    · rwa [hm]
    · rw [hm]
      exact Memory.within_writeWord v ((inRange_iff s a 4).mp hr) hin

theorem enterFault {s : State} (h : Inv s) (op modrm : Option Byte) (f : Fault) :
    Inv (enterFault op modrm f s) := by
  obtain ⟨hp, hwf, hin, -⟩ := h
  exact ⟨hp, hwf, hin, faultReport_legal op modrm f s⟩

end Inv

/-- What a step can do, with the decoder's faults and those of an instruction taken together (60_exceptions.md R207): a step
that is not ignored commits, or enters a fault from the state before it. -/
theorem step_outcomes {s t : State} (h : step s = .next t) :
    (s.runState ≠ .running ∧ t = s) ∨ (s.runState = .running ∧ Committed s t) ∨
    (s.runState = .running ∧ ∃ op modrm f, t = enterFault op modrm f s) := by
  rcases step_cases h with hn | ⟨hr, i, -, he⟩ | ⟨hr, e, -, rfl⟩
  · exact .inl hn
  · exact .inr ((exec_cases he).imp (⟨hr, ·⟩) (⟨hr, ·⟩))
  · exact .inr (.inr ⟨hr, fetchFault_eq s e⟩)

/-- Settles O19: a commit writes memory in range alone, and a fault entry leaves a legal report. -/
theorem stepKeepsTheStateLegal : Obligations.StepKeepsTheStateLegal := by
  intro s t hs h
  rcases step_outcomes h with ⟨-, rfl⟩ | ⟨-, hc⟩ | ⟨-, op, modrm, f, rfl⟩
  · exact hs
  · exact hs.of_committed hc
  · exact hs.enterFault op modrm f

/-- Settles O20: the reset memory lists no cell. -/
theorem resetStateIsLegal : Obligations.ResetStateIsLegal := by
  have hmem : State.reset.mem.within State.reset.params.memSize := fun c hc => absurd hc List.not_mem_nil
  exact ⟨⟨⟨by decide, by decide⟩, by decide, hmem, rfl⟩, rfl, rfl⟩

/-! ### The fault entry -/

@[simp] theorem faultReport_pc (op modrm : Option Byte) (f : Fault) (s : State) :
    (faultReport op modrm f s).pc = s.pc := by
  cases f <;> rfl

/-- A step request whose step ends in a fault hands the report to the host (60_exceptions.md R207, R220). -/
theorem hostStep_of_faulted {s t : State} (hr : s.runState = .running) (h : step s = .next t)
    (ht : t.runState = .faulted) : hostStep s = (t, .fault t.fault) := by
  simp [hostStep, hr, h, ht]

/-- Settles O16: a commit keeps RUN_STATE, so a step that ends FAULTED is a fault entry. -/
theorem faultEntryIsPrecise : Obligations.FaultEntryIsPrecise := by
  intro s t hr h ht
  rcases step_outcomes h with ⟨hn, -⟩ | ⟨-, hc⟩ | ⟨-, op, modrm, f, rfl⟩
  · exact absurd hr hn
  · have : t.runState = .running := hc.runState.trans hr
    simp [this] at ht
  · exact ⟨rfl, rfl, rfl, rfl, rfl, faultReport_pc op modrm f s, faultReport_legal op modrm f s,
      hostStep_of_faulted hr h ht⟩

/-! ### Who writes the fault registers -/

@[simp] theorem hostStop_fault (s : State) : (hostStop s).fault = s.fault := by
  unfold hostStop; split <;> rfl

@[simp] theorem hostResume_fault (s : State) : (hostResume s).fault = s.fault := by
  unfold hostResume; split <;> rfl

/-- An inspection write reaches neither RUN_STATE nor the fault registers (60_exceptions.md R216, R205). -/
theorem hostWrite_controlKept (s : State) (v : Word) (l : Writable) : ControlKept s (hostWrite s v l).1 := by
  cases l with
  | reg index =>
    simp only [hostWrite]
    cases regOfIndex index <;> exact ⟨rfl, rfl, rfl⟩
  | pc | flags => exact ⟨rfl, rfl, rfl⟩
  | mem a width =>
    cases width with
    | byte =>
      simp only [hostWrite]
      cases h : memWrite8 a (byteOfWord v 0) s with
      | ok t => obtain ⟨-, rfl⟩ := memWrite8_eq_ok.mp h; exact ⟨rfl, rfl, rfl⟩
      | error f => exact ⟨rfl, rfl, rfl⟩
    | dword =>
      simp only [hostWrite]
      cases h : memWrite32 a v s with
      | ok t => obtain ⟨-, rfl⟩ := memWrite32_eq_ok.mp h; exact ⟨rfl, rfl, rfl⟩
      | error f => exact ⟨rfl, rfl, rfl⟩

/-- A step request that changes the fault registers entered a fault from RUNNING. -/
theorem hostStep_faults_of_fault_ne {s : State} (h : (hostStep s).1.fault ≠ s.fault) :
    s.runState = .running ∧ (hostStep s).1.runState = .faulted := by
  rcases hostStep_fst_cases s with hs | hs
  · exact absurd (congrArg State.fault hs) h
  · rcases step_outcomes hs with ⟨-, ht⟩ | ⟨-, hc⟩ | ⟨hr, op, modrm, f, ht⟩
    · exact absurd (congrArg State.fault ht) h
    · exact absurd hc.fault h
    · exact ⟨hr, by rw [ht, enterFault_runState]⟩

/-- Settles O18, by the kind of request. -/
theorem onlyFaultEntryAndResetWriteTheFaultRegisters :
    Obligations.OnlyFaultEntryAndResetWriteTheFaultRegisters := by
  intro s r h
  cases r with
  | reset init => exact .inl ⟨init, rfl, rfl⟩
  | step => exact .inr ⟨rfl, hostStep_faults_of_fault_ne h⟩
  | stop => exact absurd (hostStop_fault s) h
  | resume => exact absurd (hostResume_fault s) h
  | read l => exact absurd rfl h
  | write l v => exact absurd (hostWrite_controlKept s v l).2.1 h

end Sys2Proof.Machine
end

section
/-! Inspection of registers, `pc`, `FLAGS`, RUN_STATE and the fault registers by the host (60_exceptions.md R216). -/

namespace Sys2Proof.Machine

theorem regOfIndex_of_lt {k : Nat} (h : k < 8) : regOfIndex k = some (Reg.ofBits (BitVec.ofNat 3 k)) := if_pos h

theorem regsKeptBut_setReg (s : State) (r : Reg) (v : Word) : RegsKeptBut [r] s (s.setReg r v) := by
  intro r' h
  exact State.reg_setReg_of_ne s v (by simpa using h)

/-- A register of a legal index is written, and reads back, by its number. -/
theorem host_write_reg {k : Nat} (h : k < 8) (s : State) (v : Word) :
    host s (.write (.reg k) v) = (s.setReg (Reg.ofBits (BitVec.ofNat 3 k)) v, .ok) := by
  simp [host, hostWrite, regOfIndex_of_lt h]

theorem host_read_reg {k : Nat} (h : k < 8) (s : State) :
    host s (.read (.writable (.reg k))) = (s, .value (s.reg (Reg.ofBits (BitVec.ofNat 3 k)))) := by
  simp [host, hostRead, readWritable, regOfIndex_of_lt h]

theorem host_read_runState (s : State) :
    host s (.read .runState) = (s, .value (s.runState.code.zeroExtend 32)) := rfl

/-- Settles O56, clause by clause. -/
theorem registerInspectionIsExact : Obligations.RegisterInspectionIsExact := by
  intro s v
  refine ⟨fun k hk => ?reg, ⟨s.setPc v, rfl, rfl, fun _ _ => rfl, fun _ => rfl, rfl, rfl, rfl, rfl, rfl⟩,
    ⟨{ s with flags := v }, rfl, rfl, fun _ _ => rfl, fun _ => rfl, rfl, rfl, rfl, rfl⟩, fun l => ?control,
    fun _ => rfl, fun h => ?running, fun h => ?stopped, fun h => ?faulted, rfl, rfl, rfl, rfl, rfl, rfl, rfl⟩
  case reg =>
    refine ⟨_, host_write_reg hk s v, ?_, regsKeptBut_setReg s _ v, fun _ => rfl, rfl, rfl, rfl, rfl, rfl⟩
    rw [host_read_reg hk, State.reg_setReg_same]
  case control =>
    obtain ⟨hr, hf, -⟩ := hostWrite_controlKept s v l
    exact ⟨hr, hf⟩
  case running | stopped | faulted =>
    rw [host_read_runState, h]
    rfl

end Sys2Proof.Machine
end

section
/-! Frames of all instructions (10_state.md R23, R25, R27): what a committed instruction leaves in the registers, `pc` and `FLAGS`, said once over the constructors of Instr, beside the `Committed` of Laws/Step. -/

namespace Sys2Proof.Machine

/-! ### Writes before `pc` moves -/

/-- The working copy of an instruction before it writes `FLAGS` and `pc`: no register is written but those listed, and
`pc`, `FLAGS`, the parameters and the draw count are as before. -/
structure WritesOnly (rs : List Reg) (s t : State) : Prop where
  regs : RegsKeptBut rs s t
  pc : t.pc = s.pc
  flags : t.flags = s.flags
  params : t.params = s.params
  draws : t.draws = s.draws

namespace WritesOnly

theorem refl {rs : List Reg} (s : State) : WritesOnly rs s s := ⟨fun _ _ => rfl, rfl, rfl, rfl, rfl⟩

theorem setReg {rs : List Reg} {s t : State} (h : WritesOnly rs s t) {r : Reg} (hr : r ∈ rs) (v : Word) :
    WritesOnly rs s (t.setReg r v) where
  regs r' hr' := (State.reg_setReg_of_ne t v (ne_of_mem_of_not_mem hr hr').symm).trans (h.regs r' hr')
  pc := h.pc
  flags := h.flags
  params := h.params
  draws := h.draws

/-- A memory write reaches no register (R23). -/
theorem of_memWrite32 {s t : State} {a : Nat} {v : Word} (h : memWrite32 a v s = .ok t) : WritesOnly [] s t := by
  obtain ⟨-, rfl⟩ := memWrite32_eq_ok.mp h
  exact ⟨fun _ _ => rfl, rfl, rfl, rfl, rfl⟩

/-- A write of an r/m destination reaches the register it is, or memory. -/
theorem of_writeRm {s t : State} {rm : RM} {v : Word} (h : writeLoc (resolve rm s) v s = .ok t) :
    WritesOnly (rmRegs rm) s t := by
  cases rm with
  | reg r =>
    cases h
    exact (refl s).setReg (List.mem_singleton_self r) v
  | mem b | memDisp8 b d | memDisp32 b d => exact of_memWrite32 h

theorem of_push {s t : State} {v : Word} (h : push v s = .ok t) : WritesOnly [.esp] s t := by
  obtain ⟨-, rfl⟩ := push_eq_ok.mp h
  exact ⟨((refl s).setReg (List.mem_singleton_self _) _).regs, rfl, rfl, rfl, rfl⟩

/-- A pop, which may follow other writes (LEAVE writes ESP first), writes ESP. -/
theorem pop {rs : List Reg} {s t u : State} {v : Word} (h : WritesOnly rs s t) (hesp : .esp ∈ rs)
    (hp : pop t = .ok (v, u)) : WritesOnly rs s u := by
  obtain ⟨-, -, rfl⟩ := pop_eq_ok.mp hp
  exact h.setReg hesp _

end WritesOnly

/-! ### What an instruction commits -/

/-- The draw of `FLAGS` depends on `FLAGS`, the policy and the draw count alone (10_state.md R27). -/
theorem WritesOnly.aluFlags_flags {rs : List Reg} {s t : State} (h : WritesOnly rs s t) :
    (aluFlags t).flags = (aluFlags s).flags := by
  unfold aluFlags
  rw [h.params]
  split
  · exact h.flags
  · exact congrArg Config.freeFlags h.draws

/-- What instruction `i` commits in the registers (R23), `pc` (R25) and `FLAGS` (R27). -/
structure Follows (i : Instr) (s t : State) : Prop where
  regs : RegsKeptBut (writtenRegs i) s t
  pc : t.pc = nextPc i s
  flags : t.flags = if isAlu i then (aluFlags s).flags else s.flags

namespace Follows

section
variable {i : Instr} {s t : State} (h : WritesOnly (writtenRegs i) s t)
include h

/-- An instruction other than ADD, SUB and INC ends by writing its `pc`. -/
theorem of_setPc {pc : Word} (hi : isAlu i = false) (hpc : pc = nextPc i s) : Follows i s (t.setPc pc) :=
  ⟨h.regs, hpc, by simpa [hi] using h.flags⟩

theorem of_advance (hi : isAlu i = false) (hpc : s.pc + BitVec.ofNat 32 i.length = nextPc i s) :
    Follows i s (t.advance i.length) :=
  of_setPc h hi (by rw [h.pc, hpc])

/-- ADD, SUB and INC draw `FLAGS`, then advance. -/
theorem of_alu (hi : isAlu i = true) (hpc : s.pc + BitVec.ofNat 32 i.length = nextPc i s) :
    Follows i s ((aluFlags t).advance i.length) where
  regs r hr := by rw [State.advance_reg, aluFlags_reg, h.regs r hr]
  pc := by rw [State.advance_pc, aluFlags_pc, h.pc, hpc]
  flags := by rw [State.advance_flags, h.aluFlags_flags, if_pos hi]

end

/-- The read-modify-write of an r/m operand, as the instruction whose destination that operand is. -/
theorem of_modifyRm {i : Instr} {s t : State} {rm : RM} {f : Word → Word}
    (h : modifyRm rm f i.length s = .ok t) (hrm : writtenRegs i = rmRegs rm) (hi : isAlu i = true)
    (hpc : s.pc + BitVec.ofNat 32 i.length = nextPc i s) : Follows i s t := by
  obtain ⟨a, -, h⟩ := bind_eq_ok.mp h
  obtain ⟨u, hu, ht⟩ := bind_eq_ok.mp h
  cases ht
  exact of_alu (hrm ▸ WritesOnly.of_writeRm hu) hi hpc

end Follows

/-- What a transaction's commit leaves holds of its answer, unless that is a fault entry. -/
theorem transact_or_fault {i : Instr} {s t : State} {body : Except Fault State} {P : Prop}
    (h : transact i s body = .next t) (hP : body = .ok t → P) : P ∨ ∃ op modrm f, t = enterFault op modrm f s :=
  (transact_cases h).imp_left fun hb => hP hb.2

/-- What exec leaves in the registers, `pc` and `FLAGS`: what the tables of 10_state.md give the instruction, unless it
entered a fault. -/
theorem exec_follows {i : Instr} {s t : State} (h : exec i s = .next t) :
    Follows i s t ∨ ∃ op modrm f, t = enterFault op modrm f s := by
  simp only [exec] at h
  cases i with
  | movRegImm r imm =>
    simp only [execMovRegImm] at h
    refine transact_or_fault h fun hb => ?_
    cases hb
    exact .of_advance ((WritesOnly.refl s).setReg (List.mem_singleton_self r) imm) rfl rfl
  | movRmReg rm reg =>
    simp only [execMovRmReg] at h
    refine transact_or_fault h fun hb => ?_
    obtain ⟨u, hu, ht⟩ := bind_eq_ok.mp hb
    cases ht
    exact .of_advance (WritesOnly.of_writeRm hu) rfl rfl
  | movRegRm reg rm =>
    simp only [execMovRegRm] at h
    refine transact_or_fault h fun hb => ?_
    obtain ⟨v, -, ht⟩ := bind_eq_ok.mp hb
    cases ht
    exact .of_advance ((WritesOnly.refl s).setReg (List.mem_singleton_self reg) v) rfl rfl
  | addRegRm reg rm =>
    simp only [execAddRegRm] at h
    refine transact_or_fault h fun hb => ?_
    obtain ⟨v, -, ht⟩ := bind_eq_ok.mp hb
    cases ht
    exact .of_alu ((WritesOnly.refl s).setReg (List.mem_singleton_self reg) _) rfl rfl
  | addRmReg rm reg | addRmImm8 rm imm | subRmImm8 rm imm | incRm rm =>
    simp only [execAddRmReg, execAddRmImm8, execSubRmImm8, execIncRm] at h
    exact transact_or_fault h fun hb => Follows.of_modifyRm hb rfl rfl rfl
  | pushReg r | pushImm8 imm | pushImm32 imm =>
    simp only [execPushReg, execPushImm8, execPushImm32] at h
    refine transact_or_fault h fun hb => ?_
    obtain ⟨u, hu, ht⟩ := bind_eq_ok.mp hb
    cases ht
    exact .of_advance (WritesOnly.of_push hu) rfl rfl
  | callRel32 rel =>
    simp only [execCallRel32] at h
    refine transact_or_fault h fun hb => ?_
    obtain ⟨u, hu, ht⟩ := bind_eq_ok.mp hb
    cases ht
    exact .of_setPc (i := .callRel32 rel) (WritesOnly.of_push hu) rfl rfl
  | popReg r =>
    simp only [execPopReg] at h
    refine transact_or_fault h fun hb => ?_
    obtain ⟨⟨v, u⟩, hu, ht⟩ := bind_eq_ok.mp hb
    cases ht
    exact .of_advance (((WritesOnly.refl s).pop (by simp [writtenRegs]) hu).setReg (by simp [writtenRegs]) v) rfl rfl
  | ret =>
    simp only [execRet] at h
    refine transact_or_fault h fun hb => ?_
    obtain ⟨⟨v, u⟩, hu, ht⟩ := bind_eq_ok.mp hb
    cases ht
    have hv : v = s.wordAt (s.reg .esp).toNat := (pop_eq_ok.mp hu).2.1
    exact .of_setPc (i := .ret) ((WritesOnly.refl s).pop (by simp [writtenRegs]) hu) rfl hv
  | leave =>
    simp only [execLeave] at h
    refine transact_or_fault h fun hb => ?_
    obtain ⟨⟨v, u⟩, hu, ht⟩ := bind_eq_ok.mp hb
    cases ht
    have hframe : WritesOnly (writtenRegs .leave) s (s.setReg .esp (s.reg .ebp)) :=
      (WritesOnly.refl s).setReg (by simp [writtenRegs]) _
    exact .of_advance ((hframe.pop (by simp [writtenRegs]) hu).setReg (by simp [writtenRegs]) v) rfl rfl
  | jmpRel8 rel | jmpRel32 rel =>
    simp only [execJmpRel8, execJmpRel32] at h
    refine transact_or_fault h fun hb => ?_
    cases hb
    exact .of_setPc (WritesOnly.refl s) rfl rfl

/-! ### The obligations -/

/-- Settles O23: a commit writes the registers of the table, a fault entry none. -/
theorem registersWrittenAreThoseOfTheTable : Obligations.RegistersWrittenAreThoseOfTheTable := by
  refine ⟨fun i s t h => ?_, fun s t a v h => ?_⟩
  · rcases exec_follows h with hf | ⟨op, modrm, f, rfl⟩
    · exact hf.regs
    · exact fun r _ => enterFault_reg op modrm f s r
  · obtain ⟨-, rfl⟩ := memWrite32_eq_ok.mp h
    rfl

/-- The window from a `pc` outside memory is empty. -/
theorem fetchWindow_of_outside {s : State} (h : s.params.memSize ≤ s.pc.toNat) : fetchWindow s = [] := by
  rw [← List.length_eq_zero_iff, fetchWindow, length_bytesFrom]
  omega

/-- A step from a `pc` at or beyond `MEM_SIZE` raises the opcode fetch's error (10_state.md R25; 43_jump.md R152). -/
theorem opcodeFetchFaults (s : State) : OpcodeFetchFaults s := by
  intro hr hpc
  have hstep := step_of_decode_error hr (e := .truncated 0 .byte none none) (by rw [fetchWindow_of_outside hpc]; rfl)
  refine faultsWith_enterFault (op := none) (m := none) (f := .memoryOutOfRange s.pc.toNat .byte .fetch) ?_ hstep
  simp [faultReport, Fault.code, Access.code, AccessWidth.bytes]

/-- Settles O25: `Follows` gives the `pc` of a commit; a commit from RUNNING is RUNNING, so any other end is a fault entry. -/
theorem programCounterAfterEachInstruction : Obligations.ProgramCounterAfterEachInstruction := by
  intro i s t hr h
  refine ⟨fun ht => ⟨?_, opcodeFetchFaults t⟩, fun ht => ?_⟩
  · rcases exec_follows h with hf | ⟨op, modrm, f, rfl⟩
    · exact hf.pc
    · simp at ht
  · rcases exec_cases h with hc | ⟨op, modrm, f, rfl⟩
    · exact absurd (hc.runState.trans hr) ht
    · rfl

/-- Settles O26: `Follows` gives the `FLAGS` of a commit, and a fault entry keeps them. -/
theorem flagsFollowThePolicy : Obligations.FlagsFollowThePolicy := by
  intro i s t _ h
  rcases exec_follows h with hf | ⟨op, modrm, f, rfl⟩
  · refine ⟨fun hp => ?_, fun hi => ?_, fun hp hi _ => ?_⟩
    · rw [hf.flags, aluFlags_of_preserve s hp, ite_self]
    · simp [hf.flags, hi]
    · rw [hf.flags, if_pos hi, aluFlags_flags_of_havoc s hp]
  · exact ⟨fun _ => rfl, fun _ => rfl, fun _ _ ht => by simp at ht⟩

end Sys2Proof.Machine
end

section
/-! No step depends on `FLAGS` (10_state.md R26): a relation of two states that agree but for `FLAGS`, kept by every operation an instruction is made of, and so by exec and step. -/

namespace Sys2Proof.Machine

/-- Two states that differ in `FLAGS` alone. -/
def SameButFlags (s t : State) : Prop := ∃ f, t = { s with flags := f }

/-- Two computations that raise the same error, or end in related values. -/
def Agree {α : Type} (R : α → α → Prop) (x y : Except Fault α) : Prop :=
  (∃ f, x = .error f ∧ y = .error f) ∨ ∃ a b, x = .ok a ∧ y = .ok b ∧ R a b

/-- Two results whose next states differ in `FLAGS` alone. -/
def SameResultButFlags (x y : Result) : Prop := ∃ t t', x = .next t ∧ y = .next t' ∧ SameButFlags t t'

namespace Agree

variable {α β : Type} {R : α → α → Prop} {S : β → β → Prop}

theorem ok {a b : α} (h : R a b) : Agree R (.ok a) (.ok b) := .inr ⟨a, b, rfl, rfl, h⟩

theorem error (f : Fault) : Agree R (.error f) (.error f) := .inl ⟨f, rfl, rfl⟩

theorem bind {x y : Except Fault α} {g k : α → Except Fault β} (h : Agree R x y)
    (hg : ∀ a b, R a b → Agree S (g a) (k b)) : Agree S (x >>= g) (y >>= k) := by
  rcases h with ⟨f, rfl, rfl⟩ | ⟨a, b, rfl, rfl, hab⟩
  · exact error f
  · exact hg a b hab

/-- After one and the same read, related continuations agree. -/
theorem bind_same {x : Except Fault α} {g k : α → Except Fault β} (hg : ∀ a, Agree S (g a) (k a)) :
    Agree S (x >>= g) (x >>= k) := by
  cases x with
  | ok a => exact hg a
  | error f => exact error f

end Agree

/-! ### The operations -/

namespace SameButFlags

variable {s t : State}

theorem setReg (h : SameButFlags s t) (r : Reg) (v : Word) : SameButFlags (s.setReg r v) (t.setReg r v) := by
  obtain ⟨f, rfl⟩ := h
  exact ⟨f, rfl⟩

theorem setPc (h : SameButFlags s t) (v : Word) : SameButFlags (s.setPc v) (t.setPc v) := by
  obtain ⟨f, rfl⟩ := h
  exact ⟨f, rfl⟩

theorem advance (h : SameButFlags s t) (n : Nat) : SameButFlags (s.advance n) (t.advance n) := by
  obtain ⟨f, rfl⟩ := h
  exact ⟨f, rfl⟩

/-- A draw of `FLAGS` overwrites the difference; without one it stays. -/
theorem aluFlags (h : SameButFlags s t) : SameButFlags (aluFlags s) (aluFlags t) := by
  obtain ⟨f, rfl⟩ := h
  cases hp : s.params.flagPolicy with
  | preserve => exact ⟨f, by simp [Machine.aluFlags, hp]⟩
  | havoc => exact ⟨Config.freeFlags s.draws, by simp [Machine.aluFlags, hp]⟩

theorem enterFault (h : SameButFlags s t) (op modrm : Option Byte) (e : Fault) :
    SameButFlags (enterFault op modrm e s) (enterFault op modrm e t) := by
  obtain ⟨f, rfl⟩ := h
  exact ⟨f, by cases e <;> rfl⟩

theorem fetchFault (h : SameButFlags s t) (e : DecodeError) : SameButFlags (fetchFault s e) (fetchFault t e) := by
  cases e with
  | unsupportedOpcode op | unsupportedGroupSelector op b | unsupportedAddressing op b => exact h.enterFault _ _ _
  | truncated offset width op modrm =>
    obtain ⟨f, rfl⟩ := h
    exact enterFault ⟨f, rfl⟩ _ _ _

theorem reg (h : SameButFlags s t) (r : Reg) : t.reg r = s.reg r := by
  obtain ⟨f, rfl⟩ := h
  rfl

theorem pc (h : SameButFlags s t) : t.pc = s.pc := by
  obtain ⟨f, rfl⟩ := h
  rfl

theorem resolve (h : SameButFlags s t) (rm : RM) : resolve rm t = resolve rm s := by
  obtain ⟨f, rfl⟩ := h
  rfl

theorem memRead32 (h : SameButFlags s t) (a : Nat) : memRead32 a t = memRead32 a s := by
  obtain ⟨f, rfl⟩ := h
  rfl

theorem readLoc (h : SameButFlags s t) (loc : Location) : readLoc loc t = readLoc loc s := by
  obtain ⟨f, rfl⟩ := h
  rfl

theorem inRange (h : SameButFlags s t) (a n : Nat) : t.inRange a n = s.inRange a n := by
  obtain ⟨f, rfl⟩ := h
  rfl

theorem memWrite32 (h : SameButFlags s t) (a : Nat) (v : Word) :
    Agree SameButFlags (memWrite32 a v s) (memWrite32 a v t) := by
  simp only [Machine.memWrite32, h.inRange]
  split
  · obtain ⟨f, rfl⟩ := h
    exact .ok ⟨f, rfl⟩
  · exact .error _

theorem writeLoc (h : SameButFlags s t) (loc : Location) (v : Word) :
    Agree SameButFlags (writeLoc loc v s) (writeLoc loc v t) := by
  cases loc with
  | reg r => exact .ok (h.setReg r v)
  | mem ea => exact h.memWrite32 ea.toNat v

theorem push (h : SameButFlags s t) (v : Word) : Agree SameButFlags (push v s) (push v t) := by
  unfold Machine.push
  rw [h.reg]
  exact (h.memWrite32 _ v).bind fun _ _ hw => .ok (hw.setReg _ _)

/-- Pops of such states yield one and the same word. -/
theorem pop_bind (h : SameButFlags s t) {g k : Word × State → Except Fault State}
    (hg : ∀ v u w, SameButFlags u w → Agree SameButFlags (g (v, u)) (k (v, w))) :
    Agree SameButFlags (pop s >>= g) (pop t >>= k) := by
  simp only [pop, h.reg, h.memRead32, bind_assoc, pure_bind]
  exact .bind_same fun v => hg v _ _ (h.setReg _ _)

theorem modifyRm (h : SameButFlags s t) (rm : RM) (f : Word → Word) (n : Nat) :
    Agree SameButFlags (modifyRm rm f n s) (modifyRm rm f n t) := by
  simp only [Machine.modifyRm, h.resolve, h.readLoc]
  exact .bind_same fun a => (h.writeLoc _ (f a)).bind fun _ _ hw => .ok (hw.aluFlags.advance n)

theorem transact (h : SameButFlags s t) (i : Instr) {x y : Except Fault State} (hb : Agree SameButFlags x y) :
    SameResultButFlags (transact i s x) (transact i t y) := by
  unfold Machine.transact
  split
  · rcases hb with ⟨f, rfl, rfl⟩ | ⟨u, w, rfl, rfl, hw⟩
    · exact ⟨_, _, rfl, rfl, h.enterFault _ _ f⟩
    · exact ⟨u, w, rfl, rfl, hw⟩
  · exact ⟨_, _, rfl, rfl, h.enterFault _ _ _⟩

/-! ### exec and step -/

theorem exec (h : SameButFlags s t) (i : Instr) : SameResultButFlags (exec i s) (exec i t) := by
  simp only [Machine.exec]
  cases i with
  | movRegImm r imm =>
    exact h.transact _ (.ok ((h.setReg r imm).advance _))
  | movRmReg rm reg =>
    simp only [execMovRmReg, h.resolve, h.reg]
    exact h.transact _ ((h.writeLoc _ _).bind fun _ _ hw => .ok (hw.advance _))
  | movRegRm reg rm =>
    simp only [execMovRegRm, h.resolve, h.readLoc]
    exact h.transact _ (.bind_same fun v => .ok ((h.setReg reg v).advance _))
  | addRegRm reg rm =>
    simp only [execAddRegRm, h.resolve, h.readLoc, h.reg]
    exact h.transact _ (.bind_same fun v => .ok ((h.setReg reg _).aluFlags.advance _))
  | addRmReg rm reg =>
    simp only [execAddRmReg, h.reg]
    exact h.transact _ (h.modifyRm rm _ _)
  | addRmImm8 rm imm | subRmImm8 rm imm | incRm rm =>
    exact h.transact _ (h.modifyRm rm _ _)
  | pushReg r =>
    simp only [execPushReg, h.reg]
    exact h.transact _ ((h.push _).bind fun _ _ hw => .ok (hw.advance _))
  | pushImm8 imm | pushImm32 imm =>
    exact h.transact _ ((h.push _).bind fun _ _ hw => .ok (hw.advance _))
  | callRel32 rel =>
    simp only [execCallRel32, h.pc]
    exact h.transact _ ((h.push _).bind fun _ _ hw => .ok (hw.setPc _))
  | popReg r =>
    exact h.transact _ (h.pop_bind fun v _ _ hw => .ok ((hw.setReg r v).advance _))
  | ret =>
    exact h.transact _ (h.pop_bind fun v _ _ hw => .ok (hw.setPc v))
  | leave =>
    simp only [execLeave, h.reg]
    exact h.transact _ ((h.setReg .esp _).pop_bind fun v _ _ hw => .ok ((hw.setReg .ebp v).advance _))
  | jmpRel8 rel | jmpRel32 rel =>
    simp only [execJmpRel8, execJmpRel32, jumpRelative, h.pc]
    exact h.transact _ (.ok (h.setPc _))

theorem bytesFrom (h : SameButFlags s t) (a n : Nat) : bytesFrom t a n = bytesFrom s a n := by
  obtain ⟨f, rfl⟩ := h
  induction n generalizing a with
  | zero => rfl
  | succ n ih =>
    simp only [Machine.bytesFrom, ih]
    rfl

theorem fetchWindow (h : SameButFlags s t) : fetchWindow t = fetchWindow s := by
  unfold Machine.fetchWindow
  rw [h.pc, h.bytesFrom]

theorem step (h : SameButFlags s t) : SameResultButFlags (step s) (step t) := by
  have hr : t.runState = s.runState := by
    obtain ⟨f, rfl⟩ := h
    rfl
  unfold Machine.step
  rw [hr, h.fetchWindow]
  cases s.runState with
  | running =>
    cases decode (Machine.fetchWindow s) with
    | ok i => exact h.exec i
    | error e => exact ⟨_, _, rfl, rfl, h.fetchFault e⟩
  | stopped | faulted => exact ⟨_, _, rfl, rfl, h⟩

end SameButFlags

/-- Settles O27: `SameButFlags` is kept by the step, operation by operation. -/
theorem flagsAreNotObservableByPrograms : Obligations.FlagsAreNotObservableByPrograms := by
  intro s t f h
  obtain ⟨u, t', hu, ht', g, rfl⟩ := SameButFlags.step (t := { s with flags := f }) ⟨f, rfl⟩
  obtain rfl : t = u := by rw [h] at hu; exact Host.Outcome.next.inj hu
  exact ⟨_, ht', rfl⟩

end Sys2Proof.Machine
end

section
/-! The byte memory (20_memory.md R42 to R47): what the bounds-checked reads and writes of 1 and 4 bytes answer and leave, the memory frame of every instruction, and the bytes seen by the next fetch and by the host. -/

namespace Sys2Proof.Machine

theorem inRange_eq_false_iff (s : State) (a n : Nat) : s.inRange a n = false ↔ s.params.memSize < a + n := by
  simp [State.inRange]

/-! ### Accesses of one byte -/

section
variable {s t : State} {a : Nat} {b : Byte}

theorem memRead8_of_inRange (h : s.inRange a 1 = true) : memRead8 a s = .ok (s.byteAt a) := by simp [memRead8, h]

theorem memRead8_of_outside (h : s.inRange a 1 = false) :
    memRead8 a s = .error (.memoryOutOfRange a .byte .read) := by simp [memRead8, h]

theorem memWrite8_of_inRange (h : s.inRange a 1 = true) :
    memWrite8 a b s = .ok { s with mem := s.mem.writeByte a b } := memWrite8_eq_ok.mpr ⟨h, rfl⟩

theorem memWrite8_of_outside (h : s.inRange a 1 = false) :
    memWrite8 a b s = .error (.memoryOutOfRange a .byte .write) := by simp [memWrite8, h]

/-- Memory holds the written byte (R43). -/
theorem memWrite8_byteAt_same (h : memWrite8 a b s = .ok t) : t.byteAt a = b := by
  obtain ⟨-, rfl⟩ := memWrite8_eq_ok.mp h
  exact s.mem.readByte_writeByte_same a b

/-- A written byte reads back, in the same range (R42, R43). -/
theorem memRead8_of_memWrite8 (h : memWrite8 a b s = .ok t) : memRead8 a t = .ok b := by
  have hr : t.inRange a 1 = true := by
    obtain ⟨hr, rfl⟩ := memWrite8_eq_ok.mp h
    exact hr
  rw [memRead8_of_inRange hr, memWrite8_byteAt_same h]

/-- A byte write leaves every other byte and the rest of the state alone (R43). -/
theorem memWrite8_frame (h : memWrite8 a b s = .ok t) :
    (∀ c, c ≠ a → t.byteAt c = s.byteAt c) ∧ t.regs = s.regs ∧ PlainCommit s t s.pc := by
  obtain ⟨-, rfl⟩ := memWrite8_eq_ok.mp h
  exact ⟨fun c hc => s.mem.readByte_writeByte_of_ne b hc, rfl, rfl, rfl, rfl, rfl, rfl⟩

end

/-! ### Accesses of one word -/

section
variable {s t : State} {a : Nat} {v : Word}

/-- Byte `k` of a written word lies at the `k`-th address (R43). -/
theorem memWrite32_byteAt (h : memWrite32 a v s = .ok t) {k : Nat} (hk : k < 4) :
    t.byteAt (a + k) = v.extractLsb' (8 * k) 8 := by
  obtain ⟨-, rfl⟩ := memWrite32_eq_ok.mp h
  exact s.mem.readByte_writeWord_byte a v hk

/-- A written word reads back, in the same range (R42, R43). -/
theorem memRead32_of_memWrite32 (h : memWrite32 a v s = .ok t) : memRead32 a t = .ok v := by
  obtain ⟨hr, rfl⟩ := memWrite32_eq_ok.mp h
  exact memRead32_eq_ok.mpr ⟨hr, (s.mem.readWord_writeWord_same a v).symm⟩

/-- A word write leaves every byte outside its four and the rest of the state alone (R43). -/
theorem memWrite32_frame (h : memWrite32 a v s = .ok t) :
    MemKeptBut a s t ∧ t.regs = s.regs ∧ PlainCommit s t s.pc := by
  obtain ⟨-, rfl⟩ := memWrite32_eq_ok.mp h
  exact ⟨fun b hb => s.mem.readByte_writeWord_of_outside v hb, rfl, rfl, rfl, rfl, rfl, rfl⟩

end

/-! ### The memory frame of every instruction -/

/-- Memory is kept outside the four bytes at `stored`: everywhere, where there is no such address. -/
def KeptOutside (stored : Option Word) (s t : State) : Prop :=
  ∀ b, (∀ a, stored = some a → b < a.toNat ∨ a.toNat + 4 ≤ b) → t.byteAt b = s.byteAt b

namespace KeptOutside

variable {stored : Option Word} {s t u : State} {v : Word}

theorem of_memKept (h : MemKept s t) : KeptOutside stored s t := fun b _ => h b

theorem of_memKeptBut {a : Word} (h : MemKeptBut a.toNat s t) : KeptOutside (some a) s t :=
  fun b hb => h b (hb a rfl)

/-- Updates of anything but memory keep the frame. -/
theorem of_mem_eq (h : KeptOutside stored s t) (hm : u.mem = t.mem) : KeptOutside stored s u := by
  intro b hb
  rw [State.byteAt, hm]
  exact h b hb

/-- A write of an r/m destination stores at its effective address, if it lies in memory. -/
theorem of_writeRm {rm : RM} (h : writeLoc (resolve rm s) v s = .ok t) : KeptOutside (rmAddress rm s) s t := by
  rw [rmAddress]
  cases hloc : resolve rm s with
  | reg r =>
    rw [hloc] at h
    cases h
    exact of_memKept fun _ => rfl
  | mem ea =>
    rw [hloc] at h
    exact of_memKeptBut (memWrite32_frame h).1

/-- A push stores at ESP - 4 (42_stack_call.md R130). -/
theorem of_push (h : push v s = .ok t) : KeptOutside (some (s.reg .esp - 4#32)) s t := by
  obtain ⟨u, hu, ht⟩ := bind_eq_ok.mp h
  cases ht
  exact of_mem_eq (of_memKeptBut (memWrite32_frame hu).1) rfl

/-- A pop stores nothing (R131). -/
theorem of_pop (h : pop s = .ok (v, t)) : KeptOutside stored s t := by
  obtain ⟨-, -, rfl⟩ := pop_eq_ok.mp h
  exact of_memKept fun _ => rfl

theorem of_modifyRm {rm : RM} {f : Word → Word} {n : Nat} (h : modifyRm rm f n s = .ok t) :
    KeptOutside (rmAddress rm s) s t := by
  obtain ⟨a, -, h⟩ := bind_eq_ok.mp h
  obtain ⟨u, hu, ht⟩ := bind_eq_ok.mp h
  cases ht
  exact (of_writeRm hu).of_mem_eq (aluFlags_mem u)

/-- A transaction keeps the frame its body keeps: a fault entry writes no memory (00_scope.md R9). -/
theorem of_transact {i : Instr} {body : Except Fault State} (h : transact i s body = .next t)
    (hb : body = .ok t → KeptOutside stored s t) : KeptOutside stored s t := by
  rcases transact_or_fault h hb with hk | ⟨op, modrm, f, rfl⟩
  · exact hk
  · exact of_memKept (enterFault_byteAt op modrm f s)

end KeptOutside

/-- Every instruction keeps memory outside the word at `storedAt`. -/
theorem exec_keptOutside {i : Instr} {s t : State} (h : exec i s = .next t) : KeptOutside (storedAt i s) s t := by
  simp only [exec] at h
  cases i with
  | movRegImm r imm | jmpRel8 rel | jmpRel32 rel =>
    simp only [execMovRegImm, execJmpRel8, execJmpRel32] at h
    refine .of_transact h fun hb => ?_
    cases hb
    exact .of_memKept fun _ => rfl
  | movRmReg rm reg =>
    simp only [execMovRmReg] at h
    refine .of_transact h fun hb => ?_
    obtain ⟨u, hu, ht⟩ := bind_eq_ok.mp hb
    cases ht
    exact (KeptOutside.of_writeRm hu).of_mem_eq rfl
  | movRegRm reg rm =>
    simp only [execMovRegRm] at h
    refine .of_transact h fun hb => ?_
    obtain ⟨v, -, ht⟩ := bind_eq_ok.mp hb
    cases ht
    exact .of_memKept fun _ => rfl
  | addRegRm reg rm =>
    simp only [execAddRegRm] at h
    refine .of_transact h fun hb => ?_
    obtain ⟨v, -, ht⟩ := bind_eq_ok.mp hb
    cases ht
    exact .of_memKept fun b => by simp
  | addRmReg rm reg | addRmImm8 rm imm | subRmImm8 rm imm | incRm rm =>
    simp only [execAddRmReg, execAddRmImm8, execSubRmImm8, execIncRm] at h
    exact .of_transact h fun hb => .of_modifyRm hb
  | pushReg r | pushImm8 imm | pushImm32 imm | callRel32 rel =>
    simp only [execPushReg, execPushImm8, execPushImm32, execCallRel32] at h
    refine .of_transact h fun hb => ?_
    obtain ⟨u, hu, ht⟩ := bind_eq_ok.mp hb
    cases ht
    exact (KeptOutside.of_push hu).of_mem_eq rfl
  | popReg r | ret =>
    simp only [execPopReg, execRet] at h
    refine .of_transact h fun hb => ?_
    obtain ⟨⟨v, u⟩, hu, ht⟩ := bind_eq_ok.mp hb
    cases ht
    exact (KeptOutside.of_pop hu).of_mem_eq rfl
  | leave =>
    simp only [execLeave] at h
    refine .of_transact h fun hb => ?_
    obtain ⟨⟨v, u⟩, hu, ht⟩ := bind_eq_ok.mp hb
    cases ht
    exact (KeptOutside.of_pop hu).of_mem_eq rfl

/-! ### Memory and the host (60_exceptions.md R216) -/

section
variable {s t : State} {a : Nat} {v : Word}

theorem host_write_byte (h : memWrite8 a (v.extractLsb' 0 8) s = .ok t) :
    host s (.write (.mem a .byte) v) = (t, .ok) := by
  have h : memWrite8 a (byteOfWord v 0) s = .ok t := h
  simp [host, hostWrite, h]

theorem host_read_byte {b : Byte} (h : memRead8 a s = .ok b) :
    host s (.read (.writable (.mem a .byte))) = (s, .value (b.zeroExtend 32)) := by
  simp [host, hostRead, readWritable, h]

theorem host_write_dword (h : memWrite32 a v s = .ok t) : host s (.write (.mem a .dword) v) = (t, .ok) := by
  simp [host, hostWrite, h]

theorem host_read_dword (h : memRead32 a s = .ok v) :
    host s (.read (.writable (.mem a .dword))) = (s, .value v) := by
  simp [host, hostRead, readWritable, h]

end

/-! ### The obligations -/

/-- Settles O12: the fetch window of such a `pc` is empty. -/
theorem opcodeFetchOutsideMemoryFaults : Obligations.OpcodeFetchOutsideMemoryFaults := opcodeFetchFaults

/-- Settles O24: `KeptOutside` at `storedAt`, split by whether there is an address. -/
theorem memoryIsKeptOutsideTheStoredWord : Obligations.MemoryIsKeptOutsideTheStoredWord := by
  intro i s t h
  have hk := exec_keptOutside h
  refine ⟨fun a ha b hb => hk b fun c hc => ?stored, fun hn b => hk b fun c hc => ?nothing⟩
  case stored =>
    obtain rfl : a = c := Option.some.inj (ha.symm.trans hc)
    exact hb
  case nothing => simp [hn] at hc

/-- Settles O53: the window reads memory itself, and the written byte is in range. -/
theorem storeIsSeenByTheNextFetch : Obligations.StoreIsSeenByTheNextFetch := by
  intro a j k v s t h hk hj hpc
  have hr : a + 4 ≤ t.params.memSize := by
    rw [(Committed.of_memWrite32 h).params]
    exact (inRange_iff s a 4).mp (memWrite32_eq_ok.mp h).1
  rw [fetchWindow, getElem?_bytesFrom, if_pos ⟨hj, by omega⟩, hpc, memWrite32_byteAt h hk]

/-- Settles O51, by the bounds check; the word's bytes stand in the order `wordOfBytes` puts them. -/
theorem memReadIsLittleEndianAndChecked : Obligations.MemReadIsLittleEndianAndChecked := by
  intro a s
  simp only [← inRange_iff, ← inRange_eq_false_iff]
  exact ⟨memRead8_of_inRange, memRead8_of_outside, memRead32_of_inRange, memRead32_of_outside⟩

/-- Settles O52, by the bounds check and what a write that passes it leaves. -/
theorem memWritePlacesTheBytes : Obligations.MemWritePlacesTheBytes := by
  intro a v b s
  simp only [← inRange_iff, ← inRange_eq_false_iff]
  refine ⟨fun hr => ?byte, memWrite8_of_outside, fun hr => ?word, memWrite32_of_outside⟩
  case byte =>
    have h := memWrite8_of_inRange (b := b) hr
    exact ⟨_, h, memWrite8_byteAt_same h, memWrite8_frame h⟩
  case word =>
    have h := memWrite32_of_inRange (v := v) hr
    exact ⟨_, h, memWrite32_byteAt h (k := 0) (by decide), memWrite32_byteAt h (k := 1) (by decide),
      memWrite32_byteAt h (k := 2) (by decide), memWrite32_byteAt h (k := 3) (by decide), memWrite32_frame h⟩

/-- Settles O57: the host's access is that of the memory primitives. -/
theorem memoryInspectionIsExact : Obligations.MemoryInspectionIsExact := by
  intro s a v
  simp only [← inRange_iff]
  refine ⟨fun hr => ?word, fun hr => ?byte⟩
  case word =>
    have h := memWrite32_of_inRange (v := v) hr
    obtain ⟨hm, hregs, hc⟩ := memWrite32_frame h
    exact ⟨_, host_write_dword h, host_read_dword (memRead32_of_memWrite32 h), hm,
      fun r _ => congrArg (Regs.get · r) hregs, hc⟩
  case byte =>
    have h := memWrite8_of_inRange (b := v.extractLsb' 0 8) hr
    obtain ⟨hm, hregs, hc⟩ := memWrite8_frame h
    exact ⟨_, host_write_byte h, host_read_byte (memRead8_of_memWrite8 h), hm,
      fun r _ => congrArg (Regs.get · r) hregs, hc⟩

end Sys2Proof.Machine
end

section
/-! The encoding (30_encoding.md): the decoder accepts exactly the encodings of well-formed instructions, and what it answers to every other opcode byte, ModRM byte and group selector. -/

namespace Sys2Proof
open Machine (bind_eq_ok RejectedModrm)

/-! ### Decode and encode -/

/-- After its opcode byte, an encoded well-formed instruction decodes to itself, whatever follows it. -/
theorem decodeEntry_encoded {i : Instr} (h : i.wellFormed = true) (rest : List Byte) :
    decodeEntry i.opcode (i.modrmBytes ++ i.immBytes ++ rest) i.entry = .ok i := by
  rw [List.append_assoc]
  cases i with
  | pushReg r | popReg r | ret | leave | pushImm8 imm | jmpRel8 rel => rfl
  | movRegImm r imm | pushImm32 imm | callRel32 rel | jmpRel32 rel =>
    show (takeWord _ _ _ (bytesOfWord _ ++ rest) >>= _) = _
    rw [takeWord_bytesOfWord]
    rfl
  | movRmReg rm reg | movRegRm reg rm | addRmReg rm reg | addRegRm reg rm =>
    rw [Instr.modrmBytes_of_rm rfl]
    show (decodeModRM _ (rm.byte reg.toBits :: (rm.dispBytes ++ rest)) >>= fun m => .ok _) = _
    rw [decodeModRM_encoded _ rm _ _ h]
    simp [bind, Except.bind]
  | addRmImm8 rm imm | subRmImm8 rm imm | incRm rm =>
    rw [Instr.modrmBytes_of_rm rfl]
    show (decodeModRM _ (rm.byte _ :: (rm.dispBytes ++ _)) >>= _) = _
    rw [decodeModRM_encoded _ rm _ _ h]
    rfl

/-- Bytes that begin with an r/m operand and the immediate of an instruction are that instruction's own after its opcode. -/
theorem Instr.begins_of_rm {i : Instr} {rm : RM} {reg : BitVec 3} {bs rest : List Byte} (h : i.rm? = some rm)
    (hreg : i.regField = reg) (hbs : bs = rm.byte reg :: (rm.dispBytes ++ (i.immBytes ++ rest))) :
    ∃ rest, bs = i.modrmBytes ++ i.immBytes ++ rest :=
  ⟨rest, by rw [hbs, Instr.modrmBytes_of_rm h, hreg, List.append_assoc, List.cons_append]⟩

/-- What group `83` accepts: its two selectors, each with an immediate byte (R76). -/
theorem decodeGroup83_eq_ok {op : Byte} {m : ModRM} {i : Instr} (h : decodeGroup83 op m = .ok i) :
    ∃ imm rest, m.rest = imm :: rest ∧
      (m.reg = 0#3 ∧ i = .addRmImm8 m.rm imm ∨ m.reg = 5#3 ∧ i = .subRmImm8 m.rm imm) := by
  unfold decodeGroup83 at h
  split at h
  · next hs =>
    obtain ⟨⟨imm, rest⟩, himm, h⟩ := bind_eq_ok.mp h
    cases h
    exact ⟨imm, rest, takeByte_eq_ok.mp himm, .inl ⟨hs, rfl⟩⟩
  split at h
  · next hs =>
    obtain ⟨⟨imm, rest⟩, himm, h⟩ := bind_eq_ok.mp h
    cases h
    exact ⟨imm, rest, takeByte_eq_ok.mp himm, .inr ⟨hs, rfl⟩⟩
  · cases h

/-- What group `FF` accepts: selector 0 (R77). -/
theorem decodeGroupFF_eq_ok {op : Byte} {m : ModRM} {i : Instr} (h : decodeGroupFF op m = .ok i) :
    m.reg = 0#3 ∧ i = .incRm m.rm := by
  unfold decodeGroupFF at h
  split at h
  · next hs => exact ⟨hs, (Except.ok.inj h).symm⟩
  · cases h

/-- What an entry accepts is a well-formed instruction of that entry, read from its own bytes. -/
theorem decodeEntry_eq_ok {op : Byte} {bs : List Byte} {e : Entry} {i : Instr} (h : decodeEntry op bs e = .ok i) :
    i.entry = e ∧ i.wellFormed = true ∧ ∃ rest, bs = i.modrmBytes ++ i.immBytes ++ rest := by
  cases e with
  | pushReg r | popReg r | ret | leave =>
    cases h
    exact ⟨rfl, rfl, bs, rfl⟩
  | movRegImm r | pushImm32 | callRel32 | jmpRel32 =>
    obtain ⟨⟨v, rest⟩, hv, h⟩ := bind_eq_ok.mp h
    cases h
    exact ⟨rfl, rfl, rest, takeWord_eq_ok.mp hv⟩
  | pushImm8 | jmpRel8 =>
    obtain ⟨⟨v, rest⟩, hv, h⟩ := bind_eq_ok.mp h
    cases h
    exact ⟨rfl, rfl, rest, takeByte_eq_ok.mp hv⟩
  | movRmReg | movRegRm | addRmReg | addRegRm =>
    obtain ⟨m, hm, h⟩ := bind_eq_ok.mp h
    cases h
    obtain ⟨hw, -, -, hbs⟩ := decodeModRM_eq_ok hm
    exact ⟨rfl, hw, Instr.begins_of_rm rfl (Reg.toBits_ofBits _) hbs⟩
  | grp83 =>
    obtain ⟨m, hm, h⟩ := bind_eq_ok.mp h
    obtain ⟨hw, -, -, hbs⟩ := decodeModRM_eq_ok hm
    obtain ⟨imm, rest, hrest, hsel⟩ := decodeGroup83_eq_ok h
    rw [hrest] at hbs
    obtain ⟨hs, rfl⟩ | ⟨hs, rfl⟩ := hsel
    · exact ⟨rfl, hw, Instr.begins_of_rm rfl hs.symm hbs⟩
    · exact ⟨rfl, hw, Instr.begins_of_rm rfl hs.symm hbs⟩
  | grpFF =>
    obtain ⟨m, hm, h⟩ := bind_eq_ok.mp h
    obtain ⟨hw, -, -, hbs⟩ := decodeModRM_eq_ok hm
    obtain ⟨hs, rfl⟩ := decodeGroupFF_eq_ok h
    exact ⟨rfl, hw, Instr.begins_of_rm rfl hs.symm hbs⟩

/-- An opcode byte with no entry is rejected by name (R78). -/
theorem decode_unmapped {op : Byte} (h : dispatch op = none) (rest : List Byte) :
    decode (op :: rest) = .error (.unsupportedOpcode op) := by
  simp [decode, bind, Except.bind, h]

/-- The decoder accepts exactly the byte strings that begin with the encoding of a well-formed instruction. -/
theorem decode_eq_ok {bs : List Byte} {i : Instr} :
    decode bs = .ok i ↔ i.wellFormed = true ∧ ∃ rest, bs = encode i ++ rest := by
  constructor
  · intro h
    cases bs with
    | nil => cases h
    | cons op bs =>
      cases hd : dispatch op with
      | none => rw [decode_unmapped hd] at h; cases h
      | some e =>
        rw [decode_cons op bs e hd] at h
        obtain ⟨rfl, hw, rest, rfl⟩ := decodeEntry_eq_ok h
        refine ⟨hw, rest, ?_⟩
        rw [← opcode_of_dispatch hd, i.entry_opcode]
        rfl
  · rintro ⟨hw, rest, rfl⟩
    exact (decode_cons _ _ _ (dispatch_instr_opcode i)).trans (decodeEntry_encoded hw rest)

/-- Every encoding has its instruction's length, between 1 and 7 bytes (R74). -/
theorem length_encode (i : Instr) : Laws.EncodedLength.Statement i :=
  match i with
  | .movRegImm r imm => Laws.EncodedLength.movRegImm r imm
  | .movRmReg rm reg => Laws.EncodedLength.movRmReg rm reg
  | .movRegRm reg rm => Laws.EncodedLength.movRegRm reg rm
  | .addRmReg rm reg => Laws.EncodedLength.addRmReg rm reg
  | .addRegRm reg rm => Laws.EncodedLength.addRegRm reg rm
  | .addRmImm8 rm imm => Laws.EncodedLength.addRmImm8 rm imm
  | .subRmImm8 rm imm => Laws.EncodedLength.subRmImm8 rm imm
  | .incRm rm => Laws.EncodedLength.incRm rm
  | .pushReg r => Laws.EncodedLength.pushReg r
  | .popReg r => Laws.EncodedLength.popReg r
  | .pushImm8 imm => Laws.EncodedLength.pushImm8 imm
  | .pushImm32 imm => Laws.EncodedLength.pushImm32 imm
  | .callRel32 rel => Laws.EncodedLength.callRel32 rel
  | .ret => Laws.EncodedLength.ret
  | .leave => Laws.EncodedLength.leave
  | .jmpRel8 rel => Laws.EncodedLength.jmpRel8 rel
  | .jmpRel32 rel => Laws.EncodedLength.jmpRel32 rel

/-- Settles O1, by `decode_eq_ok`. -/
theorem decodeOfEncodeIsTheInstruction : Obligations.DecodeOfEncodeIsTheInstruction :=
  fun _ rest h => decode_eq_ok.mpr ⟨h, rest, rfl⟩

/-- Settles O2, by `decode_eq_ok`: the bytes taken are the encoding, since it has the instruction's length. -/
theorem encodeOfDecodeIsTheBytesRead : Obligations.EncodeOfDecodeIsTheBytesRead := by
  intro bs i h
  obtain ⟨hw, rest, rfl⟩ := decode_eq_ok.mp h
  obtain ⟨hlen, -, -⟩ := length_encode i
  exact ⟨hw, List.take_left' hlen, hlen⟩

/-! ### Lengths (R74) -/

/-- `M.len` is fixed by the `mod` field (R65 to R68). -/
theorem RM.len_eq_of_modBits (rm : RM) :
    rm.len = if rm.modBits = 1#2 then 2 else if rm.modBits = 2#2 then 5 else 1 := by
  cases rm <;> rfl

/-- R74's table gives an instruction's length from its opcode byte and a byte with its `mod` field. -/
theorem documentedLength_opcode (i : Instr) (b : Byte) (h : ∀ rm, i.rm? = some rm → modOf b = rm.modBits) :
    documentedLength i.opcode b = i.length := by
  cases i with
  | movRegImm r imm | pushReg r | popReg r => cases r <;> rfl
  | pushImm8 imm | pushImm32 imm | callRel32 rel | ret | leave | jmpRel8 rel | jmpRel32 rel => rfl
  | movRmReg rm reg | movRegRm reg rm | addRmReg rm reg | addRegRm reg rm | addRmImm8 rm imm | subRmImm8 rm imm
  | incRm rm =>
    rw [Instr.length, rm.len_eq_of_modBits, ← h rm rfl]
    rfl

/-- Settles O3: the byte after the opcode is the ModRM byte where the format has one. -/
theorem lengthIsFixedByOpcodeAndMod : Obligations.LengthIsFixedByOpcodeAndMod := by
  intro op rest i h
  obtain ⟨-, tail, he⟩ := decode_eq_ok.mp h
  obtain ⟨rfl, rfl⟩ := List.cons.inj he
  refine (documentedLength_opcode i _ fun rm hrm => ?_).symm
  rw [Instr.modrmBytes_of_rm hrm]
  exact modOf_modrmByte _ _ _

/-! ### Unmapped opcodes (R75, R78) -/

/-- The dispatch table has no entry for exactly the bytes R75 does not list. -/
theorem dispatch_eq_none_iff (op : Byte) : dispatch op = none ↔ op ∉ mappedOpcodes := by
  revert op; decide

/-- A decoder's answer that is not the error of an unmapped opcode byte. -/
def OpcodeAccepted {α : Type} (x : Decoded α) : Prop := ∀ o, x ≠ .error (.unsupportedOpcode o)

namespace OpcodeAccepted
variable {α β : Type}

theorem ok (a : α) : OpcodeAccepted (.ok a) := nofun

theorem bind {x : Decoded α} {f : α → Decoded β} (hx : OpcodeAccepted x) (hf : ∀ a, OpcodeAccepted (f a)) :
    OpcodeAccepted (x >>= f) := by
  cases x with
  | ok a => exact hf a
  | error e => exact fun o h => hx o (congrArg _ (Except.error.inj h))

theorem takeByte (off : Nat) (op modrm : Option Byte) (bs : List Byte) :
    OpcodeAccepted (takeByte off op modrm bs) := fun _ h => nomatch (takeByte_eq_error h).1

theorem takeWord (off : Nat) (op modrm : Option Byte) (bs : List Byte) :
    OpcodeAccepted (takeWord off op modrm bs) := fun _ h => nomatch (takeWord_eq_error h).1

theorem decodeModRM (op : Byte) (bs : List Byte) : OpcodeAccepted (decodeModRM op bs) := by
  refine (takeByte _ _ _ _).bind fun ⟨b, rest⟩ => ?_
  dsimp only
  split
  · nofun
  split
  · exact ok _
  split
  · exact ok _
  split
  · exact (takeByte _ _ _ _).bind fun _ => ok _
  · exact (takeWord _ _ _ _).bind fun _ => ok _

theorem decodeGroup83 (op : Byte) (m : ModRM) : OpcodeAccepted (decodeGroup83 op m) := by
  unfold Sys2Proof.decodeGroup83
  split
  · exact (takeByte _ _ _ _).bind fun _ => ok _
  split
  · exact (takeByte _ _ _ _).bind fun _ => ok _
  · nofun

theorem decodeGroupFF (op : Byte) (m : ModRM) : OpcodeAccepted (decodeGroupFF op m) := by
  unfold Sys2Proof.decodeGroupFF
  split
  · exact ok _
  · nofun

theorem decodeEntry (op : Byte) (bs : List Byte) (e : Entry) : OpcodeAccepted (decodeEntry op bs e) := by
  cases e with
  | pushReg r | popReg r | ret | leave => exact ok _
  | movRegImm r | pushImm32 | callRel32 | jmpRel32 => exact (takeWord _ _ _ _).bind fun _ => ok _
  | pushImm8 | jmpRel8 => exact (takeByte _ _ _ _).bind fun _ => ok _
  | movRmReg | movRegRm | addRmReg | addRegRm => exact (decodeModRM _ _).bind fun _ => ok _
  | grp83 => exact (decodeModRM _ _).bind (decodeGroup83 op)
  | grpFF => exact (decodeModRM _ _).bind (decodeGroupFF op)

end OpcodeAccepted

/-- Settles O4: a listed byte has an entry, and no entry rejects the opcode. -/
theorem unmappedOpcodesAreRejectedByName : Obligations.UnmappedOpcodesAreRejectedByName := by
  intro op rest
  refine ⟨fun h => decode_unmapped ((dispatch_eq_none_iff op).mpr h) rest, fun h => ?_⟩
  have hne : dispatch op ≠ none := fun hd => (dispatch_eq_none_iff op).mp hd h
  obtain ⟨e, he⟩ := Option.ne_none_iff_exists'.mp hne
  rw [decode_cons op rest e he]
  exact OpcodeAccepted.decodeEntry op rest e

/-! ### The ModRM byte and the group selectors (R65 to R69, R76, R77) -/

theorem Reg.ofBits_eq_iff (b : BitVec 3) (r : Reg) : Reg.ofBits b = r ↔ b = r.toBits := by
  rw [← Reg.toBits_eq_iff, Reg.toBits_ofBits]

/-- DecodeModRM on a byte with the `mod` and `rm` fields of a well-formed operand. -/
theorem decodeModRM_of_fields {rm : RM} {b : Byte} (hm : modOf b = rm.modBits) (hr : rmOf b = rm.rmBits)
    (hw : rm.wellFormed = true) (op : Byte) (rest : List Byte) :
    decodeModRM op (b :: (rm.dispBytes ++ rest)) = .ok ⟨b, regOf b, rm, rm.len, rest⟩ := by
  have hb : rm.byte (regOf b) = b := by rw [RM.byte, ← hm, ← hr, modrmByte_fields]
  have h := decodeModRM_encoded op rm (regOf b) rest hw
  rwa [hb] at h

theorem rejectedForm_iff (b : Byte) : rejectedForm b = true ↔ RejectedModrm b := by
  simp [rejectedForm, RejectedModrm]

/-- Settles O5: the operand of each clause is well formed, so its byte and displacement are read back. -/
theorem modrmOperandIsRegisterOrBasePlusDisplacement :
    Obligations.ModrmOperandIsRegisterOrBasePlusDisplacement := by
  intro op b rest s x
  have hx : rmOf b = x.toBits := (Reg.toBits_ofBits _).symm
  have ne {r : Reg} (h : rmOf b ≠ r.toBits) : x ≠ r := fun hxr => h ((Reg.ofBits_eq_iff _ _).mp hxr)
  refine ⟨fun hm => ?mod3, fun hm h4 h5 => ?mod0, fun d8 hm h4 => ?mod1, fun d0 d1 d2 d3 hm h4 => ?mod2,
    fun h => decodeModRM_rejected op b rest ((rejectedForm_iff b).mpr h)⟩
  case mod3 => exact ⟨_, decodeModRM_of_fields (rm := .reg x) hm hx rfl op rest, rfl, rfl, rfl⟩
  case mod0 =>
    have hw : (RM.mem x).wellFormed = true := by simp [RM.wellFormed, ne (r := .esp) h4, ne (r := .ebp) h5]
    exact ⟨_, decodeModRM_of_fields (rm := .mem x) hm hx hw op rest, rfl, rfl, rfl⟩
  case mod1 =>
    have hw : (RM.memDisp8 x d8).wellFormed = true := by simp [RM.wellFormed, ne (r := .esp) h4]
    exact ⟨_, decodeModRM_of_fields hm hx hw op rest, rfl, rfl, rfl⟩
  case mod2 =>
    have hw : (RM.memDisp32 x (wordOfBytes d0 d1 d2 d3)).wellFormed = true := by
      simp [RM.wellFormed, ne (r := .esp) h4]
    have h := decodeModRM_of_fields hm hx hw op rest
    rw [RM.dispBytes, byteOfWord_wordOfBytes] at h
    exact ⟨_, h, rfl, rfl, rfl⟩

/-- A group byte hands the operand and the selector to its group. -/
theorem decode_group {op : Byte} {e : Entry} {group : Byte → ModRM → Decoded Instr} (hd : dispatch op = some e)
    (he : ∀ bs, decodeEntry op bs e = decodeModRM op bs >>= group op) {rm : RM} (hw : rm.wellFormed = true)
    (sel : BitVec 3) (rest : List Byte) :
    decode (op :: rm.byte sel :: (rm.dispBytes ++ rest)) = group op ⟨rm.byte sel, sel, rm, rm.len, rest⟩ := by
  rw [decode_cons _ _ _ hd, he, decodeModRM_encoded op rm sel rest hw]
  rfl

/-- Settles O6, by what each group answers to its selectors. -/
theorem groupSelectorsChooseTheInstruction : Obligations.GroupSelectorsChooseTheInstruction := by
  intro rm sel rest hw b
  have h83 := decode_group (dispatch_opcode .grp83) (fun _ => rfl) hw sel
  have hFF := decode_group (dispatch_opcode .grpFF) (fun _ => rfl) hw sel
  refine ⟨fun imm hs => (h83 _).trans ?_, fun imm hs => (h83 _).trans ?_, fun h0 h5 => (h83 _).trans ?_,
    fun hs => (hFF _).trans ?_, fun h0 => (hFF _).trans ?_⟩
  · subst hs; rfl
  · subst hs; rfl
  · rw [decodeGroup83, if_neg h0, if_neg h5]; rfl
  · subst hs; rfl
  · rw [decodeGroupFF, if_neg h0]; rfl

/-- Settles O7, by running the decoder on each word. -/
theorem vectorWordsDecode : Obligations.VectorWordsDecode :=
  ⟨by decide, by decide, by decide, by decide, by decide, by decide, by decide, by decide⟩

end Sys2Proof
end

section
/-! The step as fetch, decode and exec (30_encoding.md R61, R83): it runs the instruction encoded at `pc`, does nothing when not RUNNING, and always answers a next state. -/

namespace Sys2Proof.Machine

/-- Settles O8, by the cases of the step. -/
theorem stepRunsTheDecodedInstruction : Obligations.StepRunsTheDecodedInstruction := by
  intro s i hr hd
  simp only [step, hr, hd]

/-- Settles O9: the fetch window begins with the encoding, which decodes to the instruction. -/
theorem encodedInstructionAtPcIsExecuted : Obligations.EncodedInstructionAtPcIsExecuted := by
  intro s i hw hr hc
  obtain ⟨hlen, -, hmax⟩ := length_encode i
  obtain ⟨rest, hwin⟩ := fetchWindow_of_codeAt hc (hlen.le.trans hmax)
  exact stepRunsTheDecodedInstruction s i hr (decode_eq_ok.mpr ⟨hw, rest, hwin⟩)

/-- Settles O10: neither the step nor the host's request does anything when STOPPED or FAULTED. -/
theorem stepRequestWhenNotRunningChangesNothing : Obligations.StepRequestWhenNotRunningChangesNothing := by
  intro s h
  cases hr : s.runState with
  | running => exact absurd hr h
  | stopped | faulted => simp only [step, host, hostStep, hr, and_self]

/-- Every instruction runs as a transaction (00_scope.md R9). -/
theorem exec_eq_transact (i : Instr) (s : State) : ∃ body, exec i s = transact i s body := by
  cases i with
  | movRegImm r imm | jmpRel8 rel | jmpRel32 rel => exact ⟨.ok _, rfl⟩
  | _ => exact ⟨_, rfl⟩

/-- Settles O11: a transaction ends in a next state, a decode error enters a fault, and a core that is not RUNNING stays. -/
theorem stepAlwaysAnswersANextState : Obligations.StepAlwaysAnswersANextState := by
  intro s
  by_cases hr : s.runState = .running
  · cases hd : decode (fetchWindow s) with
    | ok i =>
      obtain ⟨body, hbody⟩ := exec_eq_transact i s
      rw [stepRunsTheDecodedInstruction s i hr hd, hbody]
      exact transact_next i s body
    | error e => exact ⟨_, step_of_decode_error hr hd⟩
  · exact ⟨s, (stepRequestWhenNotRunningChangesNothing s hr).1⟩

end Sys2Proof.Machine
end

section
/-! What a step answers where an instruction's bytes are cut off by the end of memory, or its ModRM form is rejected (30_encoding.md R69, R81). -/

namespace Sys2Proof.Machine

/-! ### Fields that are cut off -/

/-- A step whose decode runs out of bytes raises the FETCH's error, with the bytes fetched by then. -/
theorem step_of_truncated {s : State} {off : Nat} {width : AccessWidth} {op modrm : Option Byte}
    (hr : s.runState = .running) (h : decode (fetchWindow s) = .error (.truncated off width op modrm)) :
    FaultsWith s (fetchReport s (op.getD 0#8) (modrm.getD 0#8) off width) (step s) :=
  faultsWith_enterFault (f := .memoryOutOfRange (s.pc.toNat + off) width .fetch) rfl (step_of_decode_error hr h)

/-- Where the decoder reports a field after `before` as cut off whenever too few bytes follow, its FETCH's error is raised. -/
theorem fieldFetchFaults_of_decode {before : List Byte} {modrm : Option Byte} {width : AccessWidth}
    (hlen : before.length ≤ maxLength)
    (h : ∀ rest, rest.length < width.bytes →
      decode (before ++ rest) = .error (.truncated before.length width before.head? modrm)) (s : State) :
    FieldFetchFaults s before (modrm.getD 0#8) width := by
  intro hr hc hend
  obtain ⟨rest, hwin⟩ := fetchWindow_of_codeAt hc hlen
  have hcount := congrArg List.length hwin
  rw [fetchWindow, length_bytesFrom, List.length_append] at hcount
  have hshort : rest.length < width.bytes := by
    have := hc.1
    omega
  rw [List.headD_eq_head?_getD]
  exact step_of_truncated hr (by rw [hwin, h rest hshort])

/-- The 32-bit field right after an opcode byte (R73; R81, check 7). -/
theorem fieldFetchFaults_imm32 {op : Byte} {e : Entry} {k : Word × List Byte → Decoded Instr}
    (hd : dispatch op = some e) (he : ∀ bs, decodeEntry op bs e = takeWord 1 (some op) none bs >>= k) (s : State) :
    FieldFetchFaults s [op] 0#8 .dword := by
  refine fieldFetchFaults_of_decode (before := [op]) (modrm := none) (Nat.le_add_left 1 6) (fun rest hshort => ?_) s
  rw [List.singleton_append, decode_cons op rest e hd, he, takeWord_of_short hshort]
  rfl

/-! ### Opcodes with a ModRM byte -/

/-- An opcode byte whose instructions have a ModRM byte: the decoder parses that first (R62). -/
def ReadsModRM (op : Byte) : Prop := ∃ k : ModRM → Decoded Instr, ∀ bs, decode (op :: bs) = decodeModRM op bs >>= k

theorem readsModRM_opcode {i : Instr} {rm : RM} (h : i.rm? = some rm) : ReadsModRM i.opcode := by
  suffices hk : ∃ k : ModRM → Decoded Instr, ∀ bs, decodeEntry i.opcode bs i.entry = decodeModRM i.opcode bs >>= k by
    obtain ⟨k, hk⟩ := hk
    exact ⟨k, fun bs => (decode_cons _ bs _ (dispatch_instr_opcode i)).trans (hk bs)⟩
  cases i with
  | movRmReg | movRegRm | addRmReg | addRegRm | addRmImm8 | subRmImm8 | incRm => exact ⟨_, fun _ => rfl⟩
  | _ => cases h

namespace ReadsModRM

variable {op : Byte} (h : ReadsModRM op) {s : State}
include h

/-- A ModRM form of R69 faults before any displacement byte is fetched (R203). -/
theorem faults_rejected {b : Byte} (hr : s.runState = .running) (hb : RejectedModrm b) (hc : CodeAt s [op, b]) :
    FaultsWith s ⟨3#8, s.pc, op, b, 0#32, 0#3, 0#2⟩ (step s) := by
  obtain ⟨k, hk⟩ := h
  obtain ⟨rest, hwin⟩ := fetchWindow_of_codeAt hc (Nat.le_add_left 2 5)
  have hd : decode (fetchWindow s) = .error (.unsupportedAddressing op b) := by
    rw [hwin, List.cons_append, hk, List.singleton_append, decodeModRM_rejected op b rest ((rejectedForm_iff b).mpr hb)]
    rfl
  exact faultsWith_enterFault (f := .unsupportedAddressing op b) rfl (step_of_decode_error hr hd)

variable {rm : RM} {reg : BitVec 3} {tail : List Byte} {n : Nat} (hw : rm.wellFormed = true) (hn : n < 1 + rm.len)
include hw hn

/-- Bytes cut off inside the opcode, the ModRM byte or the displacement miss the fetch of the first missing byte. -/
theorem decode_cutOff :
    ∃ o m, decode ((op :: rm.byte reg :: (rm.dispBytes ++ tail)).take n) =
        .error (.truncated (rmFetch rm n).1 (rmFetch rm n).2 o m) ∧
      o.getD 0#8 = (if n = 0 then 0#8 else op) ∧ m.getD 0#8 = if n ≤ 1 then 0#8 else rm.byte reg := by
  obtain ⟨k, hk⟩ := h
  cases n with
  | zero => exact ⟨none, none, rfl, rfl, rfl⟩
  | succ n =>
    obtain ⟨m, hd, hm⟩ := decodeModRM_cutOff (op := op) (reg := reg) (tail := tail) hw (by omega : n < rm.len)
    refine ⟨some op, m, ?_, rfl, ?_⟩
    · rw [List.take_succ_cons, hk, hd]
      rfl
    · simpa using hm

/-- Where memory ends inside the opcode, the ModRM byte or the displacement, that fetch raises (R44, R70). -/
theorem faults_cutOff (hr : s.runState = .running)
    (hc : CodeAt s ((op :: rm.byte reg :: (rm.dispBytes ++ tail)).take n)) (hend : s.pc.toNat + n = s.params.memSize) :
    FaultsWith s
      (fetchReport s (if n = 0 then 0#8 else op) (if n ≤ 1 then 0#8 else rm.byte reg) (rmFetch rm n).1 (rmFetch rm n).2)
      (step s) := by
  have hlen : ((op :: rm.byte reg :: (rm.dispBytes ++ tail)).take n).length = n := by
    have := rm.length_dispBytes
    simp only [List.length_take, List.length_cons, List.length_append]
    omega
  have hmax : n ≤ maxLength := by
    obtain ⟨-, hrm⟩ := Laws.EncodedLength.rm_len rm
    rw [maxLength]
    omega
  have hwin := fetchWindow_of_codeAt_end hc (hlen.trans_le hmax) (by rw [hlen, hend])
  obtain ⟨o, m, hd, ho, hm⟩ := decode_cutOff (reg := reg) (tail := tail) h hw hn
  rw [← ho, ← hm]
  exact step_of_truncated hr (hwin ▸ hd)

end ReadsModRM

/-- The decode errors of an instruction that ends with its r/m operand. -/
theorem decodeErrorsFault_of_rm {i : Instr} {rm : RM} (hrm : i.rm? = some rm) (hlen : i.length = 1 + rm.len)
    (hw : rm.wellFormed = true) (s : State) : DecodeErrorsFault i s := by
  have hop := readsModRM_opcode hrm
  refine ⟨fun hr n hn hc hend => ?cutOff, fun hr b hb hc => hop.faults_rejected hr hb hc⟩
  rw [hlen] at hn
  rw [encode_of_rm hrm] at hc
  have hf := hop.faults_cutOff hw hn hr hc hend
  have hfetch : fieldFetch i n = rmFetch rm n := by simp only [fieldFetch, hrm, if_pos hn]
  have hmodrm : i.modrm?.getD 0#8 = rm.byte i.regField := by simp [Instr.modrm?, hrm, RM.byte]
  rwa [hfetch, hmodrm]

end Sys2Proof.Machine
end

section
/-! Data movement (40_data_movement.md R100 to R102), and the frame set-up that LEAVE undoes (42_stack_call.md R139). -/

namespace Sys2Proof.Machine

/-- The bytes of an instruction that ends with its r/m operand. -/
theorem encode_of_rm_last {i : Instr} {rm : RM} (h : i.rm? = some rm) (himm : i.immBytes = []) :
    encode i = i.opcode :: rm.byte i.regField :: rm.dispBytes := by
  rw [encode_of_rm h, himm, List.append_nil]

/-! ### Commits -/

/-- A commit of one register and `pc`. -/
theorem setReg_advance_commits (s : State) (r : Reg) (v : Word) (n : Nat) :
    ((s.setReg r v).advance n).reg r = v ∧ RegsKeptBut [r] s ((s.setReg r v).advance n) ∧
      MemKept s ((s.setReg r v).advance n) ∧ PlainCommit s ((s.setReg r v).advance n) (s.pc + BitVec.ofNat 32 n) :=
  ⟨s.reg_setReg_same r v, regsKeptBut_setReg s r v, fun _ => rfl, rfl, rfl, rfl, rfl, rfl⟩

/-- A commit of one stored word and `pc`. -/
theorem memWrite32_advance_commits {s t : State} {a : Nat} {v : Word} (h : memWrite32 a v s = .ok t) (n : Nat) :
    (t.advance n).wordAt a = v ∧ MemKeptBut a s (t.advance n) ∧ RegsKeptBut [] s (t.advance n) ∧
      PlainCommit s (t.advance n) (s.pc + BitVec.ofNat 32 n) := by
  obtain ⟨-, hword⟩ := memRead32_eq_ok.mp (memRead32_of_memWrite32 h)
  obtain ⟨hmem, hregs, hpc, hflags, hcontrol⟩ := memWrite32_frame h
  exact ⟨hword.symm, hmem, fun r _ => congrArg (Regs.get · r) hregs, by rw [State.advance_pc, hpc], hflags, hcontrol⟩

/-! ### What the instructions commit -/

section
variable {s t : State} {v : Word} {rm : RM}

theorem exec_movRegImm (r : Reg) (imm : BitVec 32) (s : State) :
    exec (.movRegImm r imm) s = .next ((s.setReg r imm).advance 5) := exec_of_ok rfl rfl rfl

theorem exec_movRmReg_of_write {reg : Reg} (hw : rm.wellFormed = true)
    (h : writeLoc (resolve rm s) (s.reg reg) s = .ok t) :
    exec (.movRmReg rm reg) s = .next (t.advance (1 + rm.len)) := exec_of_ok rfl hw (bind_eq_ok.mpr ⟨t, h, rfl⟩)

theorem exec_movRegRm_of_read {reg : Reg} (hw : rm.wellFormed = true) (h : readLoc (resolve rm s) s = .ok v) :
    exec (.movRegRm reg rm) s = .next ((s.setReg reg v).advance (1 + rm.len)) :=
  exec_of_ok rfl hw (bind_eq_ok.mpr ⟨v, h, rfl⟩)

theorem exec_pushReg_of_push {r : Reg} (h : push (s.reg r) s = .ok t) : exec (.pushReg r) s = .next (t.advance 1) :=
  exec_of_ok rfl rfl (bind_eq_ok.mpr ⟨t, h, rfl⟩)

theorem exec_leave_of_pop (h : pop (s.setReg .esp (s.reg .ebp)) = .ok (v, t)) :
    exec .leave s = .next ((t.setReg .ebp v).advance 1) := exec_of_ok rfl rfl (bind_eq_ok.mpr ⟨(v, t), h, rfl⟩)

/-- What a push leaves: ESP at the pushed word (42_stack_call.md R130). -/
theorem push_stores (h : push v s = .ok t) :
    t.reg .esp = s.reg .esp - 4#32 ∧ t.wordAt (s.reg .esp - 4#32).toNat = v ∧ t.params = s.params := by
  obtain ⟨-, rfl⟩ := push_eq_ok.mp h
  exact ⟨State.reg_setReg_same _ _ _, s.mem.readWord_writeWord_same _ v, rfl⟩

end

/-- LEAVE from a frame in range: EBP is the word it pointed at, ESP the address past that word (R138). -/
theorem exec_leave_of_inRange {s : State} (h : s.inRange (s.reg .ebp).toNat 4 = true) :
    ∃ t, exec .leave s = .next t ∧ t.reg .ebp = s.wordAt (s.reg .ebp).toNat ∧ t.reg .esp = s.reg .ebp + 4#32 := by
  have hesp : (s.setReg .esp (s.reg .ebp)).reg .esp = s.reg .ebp := State.reg_setReg_same _ _ _
  have hpop := pop_of_inRange (s := s.setReg .esp (s.reg .ebp)) (by rwa [hesp])
  refine ⟨_, exec_leave_of_pop hpop, ?_, ?_⟩
  · simp [hesp]
  · simp [hesp, State.reg_setReg]

/-! ### The obligations -/

/-- Settles O28, by what it commits and the fetch of its immediate. -/
theorem movRegImmLoadsTheImmediate : Obligations.MovRegImmLoadsTheImmediate := by
  intro r imm s i
  exact ⟨rfl, ⟨_, exec_movRegImm r imm s, setReg_advance_commits s r imm 5⟩,
    fieldFetchFaults_imm32 (dispatch_opcode (.movRegImm r)) (fun _ => rfl) s⟩

/-- Settles O29, by the place of the destination. -/
theorem movRmRegStoresTheRegister : Obligations.MovRmRegStoresTheRegister := by
  intro rm reg s hw i
  simp only [← inRange_iff, ← inRange_eq_false_iff]
  refine ⟨encode_of_rm_last rfl rfl, fun r hloc => ?reg, fun a hloc hr => ?mem, fun a hloc hr => ?outside,
    decodeErrorsFault_of_rm rfl rfl hw s⟩
  case reg =>
    exact ⟨_, exec_movRmReg_of_write hw (by rw [hloc, writeLoc_reg]), setReg_advance_commits s r _ _⟩
  case mem =>
    have h := memWrite32_of_inRange (v := s.reg reg) hr
    exact ⟨_, exec_movRmReg_of_write hw (by rw [hloc, writeLoc_mem, h]), memWrite32_advance_commits h _⟩
  case outside =>
    exact exec_of_access rfl hw (by rw [hloc, writeLoc_mem, memWrite32_of_outside hr]; rfl)

/-- Settles O30, by the place of the source. -/
theorem movRegRmLoadsTheOperand : Obligations.MovRegRmLoadsTheOperand := by
  intro reg rm s hw i
  simp only [← inRange_iff, ← inRange_eq_false_iff]
  refine ⟨encode_of_rm_last rfl rfl, fun r hloc => ?reg, fun a hloc hr => ?mem, fun a hloc hr => ?outside,
    decodeErrorsFault_of_rm rfl rfl hw s⟩
  case reg =>
    exact ⟨_, exec_movRegRm_of_read hw (by rw [hloc, readLoc_reg]), setReg_advance_commits s reg _ _⟩
  case mem =>
    exact ⟨_, exec_movRegRm_of_read hw (by rw [hloc, readLoc_mem, memRead32_of_inRange hr]),
      setReg_advance_commits s reg _ _⟩
  case outside =>
    exact exec_of_access rfl hw (by rw [hloc, readLoc_mem, memRead32_of_outside hr]; rfl)

/-- Settles O48: EBP points at its own old value from the prologue until LEAVE pops it. -/
theorem leaveUndoesTheFrameSetUp : Obligations.LeaveUndoesTheFrameSetUp := by
  intro s hin
  obtain ⟨t, hpush⟩ : ∃ t, push (s.reg .ebp) s = .ok t := ⟨_, push_of_inRange ((inRange_iff s _ 4).mpr hin)⟩
  obtain ⟨hesp, hsaved, hparams⟩ := push_stores hpush
  refine ⟨_, _, exec_pushReg_of_push hpush, exec_movRmReg_of_write rfl rfl, fun w hp hebp hword => ?_⟩
  rw [State.advance_reg, State.reg_setReg_same, State.advance_reg, hesp] at hebp hword
  have hrange : w.inRange (w.reg .ebp).toNat 4 = true := by
    have hps : w.params = s.params := hp.trans hparams
    rwa [inRange_iff, hebp, hps]
  obtain ⟨x, hx, hxebp, hxesp⟩ := exec_leave_of_inRange hrange
  rw [hebp] at hxebp hxesp
  exact ⟨x, hx, hxebp.trans (hword.trans hsaved), hxesp.trans (BitVec.sub_add_cancel _ _)⟩

end Sys2Proof.Machine
end

section
/-! Arithmetic (41_arithmetic.md R110 to R115): the read-modify-write of an r/m operand, ADD into a register, and the immediate byte of group 83. -/

namespace Sys2Proof.Machine

/-! ### Commits -/

/-- The next free value under `havoc`, the old one under `preserve` (10_state.md R27). -/
theorem flagsByPolicy_of_flags {s t : State} (h : t.flags = (aluFlags s).flags) : FlagsByPolicy s t :=
  ⟨fun hp => by rw [h, aluFlags_of_preserve s hp], fun hp => by rw [h, aluFlags_flags_of_havoc s hp]⟩

/-- What ADD, SUB and INC commit beside their destination. -/
theorem aluFlags_advance_commits {rs : List Reg} {s t : State} (hw : WritesOnly rs s t) (hc : Committed s t) (n : Nat) :
    FlagsByPolicy s ((aluFlags t).advance n) ∧ ControlKept s ((aluFlags t).advance n) ∧
      ((aluFlags t).advance n).pc = s.pc + BitVec.ofNat 32 n := by
  have hcu := hc.aluFlags.advance n
  refine ⟨flagsByPolicy_of_flags ?_, ⟨hcu.runState, hcu.fault, hcu.params⟩, ?_⟩
  · rw [State.advance_flags, hw.aluFlags_flags]
  · rw [State.advance_pc, aluFlags_pc, hw.pc]

/-- The commit of an ALU result to a register. -/
theorem setReg_alu_commits (s : State) (r : Reg) (v : Word) (n : Nat) :
    let t := (aluFlags (s.setReg r v)).advance n
    t.reg r = v ∧ RegsKeptBut [r] s t ∧ MemKept s t ∧ FlagsByPolicy s t ∧ ControlKept s t ∧
      t.pc = s.pc + BitVec.ofNat 32 n := by
  have hw : WritesOnly [r] s (s.setReg r v) := (WritesOnly.refl s).setReg (List.mem_singleton_self r) v
  refine ⟨by simp, fun r' hr => ?_, fun a => by simp, aluFlags_advance_commits hw ((Committed.refl s).setReg r v) n⟩
  rw [State.advance_reg, aluFlags_reg, hw.regs r' hr]

/-- The commit of an ALU result to memory. -/
theorem memWrite32_alu_commits {s u : State} {a : Nat} {v : Word} (h : memWrite32 a v s = .ok u) (n : Nat) :
    let t := (aluFlags u).advance n
    t.wordAt a = v ∧ MemKeptBut a s t ∧ RegsKeptBut [] s t ∧ FlagsByPolicy s t ∧ ControlKept s t ∧
      t.pc = s.pc + BitVec.ofNat 32 n := by
  obtain ⟨-, hword⟩ := memRead32_eq_ok.mp (memRead32_of_memWrite32 h)
  obtain ⟨hmem, -, -⟩ := memWrite32_frame h
  have hw := WritesOnly.of_memWrite32 h
  refine ⟨?_, fun b hb => ?_, fun r hr => ?_, aluFlags_advance_commits hw (Committed.of_memWrite32 h) n⟩
  · rw [State.advance_wordAt, aluFlags_wordAt, hword]
  · rw [State.advance_byteAt, aluFlags_byteAt, hmem b hb]
  · rw [State.advance_reg, aluFlags_reg, hw.regs r hr]

/-! ### What the instructions commit -/

section
variable {s t : State} {rm : RM} {v : Word}

theorem modifyRm_of_write {f : Word → Word} (hr : readLoc (resolve rm s) s = .ok v)
    (hw : writeLoc (resolve rm s) (f v) s = .ok t) (n : Nat) : modifyRm rm f n s = .ok ((aluFlags t).advance n) :=
  bind_eq_ok.mpr ⟨v, hr, bind_eq_ok.mpr ⟨t, hw, rfl⟩⟩

theorem modifyRm_of_read_error {e : Fault} (hr : readLoc (resolve rm s) s = .error e) (f : Word → Word) (n : Nat) :
    modifyRm rm f n s = .error e := by
  rw [modifyRm, hr]
  rfl

theorem exec_addRegRm_of_read {reg : Reg} (hw : rm.wellFormed = true) (h : readLoc (resolve rm s) s = .ok v) :
    exec (.addRegRm reg rm) s = .next ((aluFlags (s.setReg reg (s.reg reg + v))).advance (1 + rm.len)) :=
  exec_of_ok rfl hw (bind_eq_ok.mpr ⟨v, h, rfl⟩)

end

/-- An instruction that is the read-modify-write of its r/m operand, by the place of that operand: the write of what was
read is in range, so the READ is the access that fails (R111, R113 to R115). -/
theorem updatesRm_of_modifyRm {i : Instr} {rm : RM} {f : Word → Word} {n : Nat} {s : State}
    (he : exec i s = transact i s (modifyRm rm f n s)) (hw : i.wellFormed = true) : UpdatesRm i rm f n s := by
  simp only [UpdatesRm, ← inRange_iff, ← inRange_eq_false_iff]
  refine ⟨fun r hloc => ?reg, fun a hloc hr => ?mem, fun a hloc hr => ?outside⟩
  case reg =>
    have hm := modifyRm_of_write (f := f) (by rw [hloc, readLoc_reg]) (by rw [hloc, writeLoc_reg]) n
    exact ⟨_, exec_of_ok he hw hm, setReg_alu_commits s r _ n⟩
  case mem =>
    have h := memWrite32_of_inRange (v := f (s.wordAt a.toNat)) hr
    have hm := modifyRm_of_write (by rw [hloc, readLoc_mem, memRead32_of_inRange hr]) (by rw [hloc, writeLoc_mem, h]) n
    exact ⟨_, exec_of_ok he hw hm, memWrite32_alu_commits h n⟩
  case outside =>
    exact exec_of_access he hw (modifyRm_of_read_error (by rw [hloc, readLoc_mem, memRead32_of_outside hr]) f n)

/-! ### The immediate byte of group 83 (30_encoding.md R76) -/

/-- How many bytes come before what follows an r/m operand (R70). -/
theorem length_throughOperand (op : Byte) (rm : RM) (reg : BitVec 3) :
    (op :: rm.byte reg :: rm.dispBytes).length = 1 + rm.len := by
  have := rm.length_dispBytes
  simp only [List.length_cons]
  omega

section
variable {rm : RM} {sel : BitVec 3} (hw : rm.wellFormed = true) (hsel : sel = 0#3 ∨ sel = 5#3)
include hw hsel

/-- Bytes that end after the operand and a legal selector lack the immediate (R81, check 7). -/
theorem decode_imm8_cutOff :
    decode (0x83#8 :: rm.byte sel :: rm.dispBytes) =
      .error (.truncated (1 + rm.len) .byte (some 0x83#8) (some (rm.byte sel))) := by
  have hd := decode_group (dispatch_opcode .grp83) (fun _ => rfl) hw sel []
  rw [List.append_nil] at hd
  refine hd.trans ?_
  rcases hsel with rfl | rfl <;> rfl

theorem fieldFetchFaults_imm8 (s : State) :
    FieldFetchFaults s (0x83#8 :: rm.byte sel :: rm.dispBytes) (rm.byte sel) .byte := by
  have hlen := length_throughOperand 0x83#8 rm sel
  have hmax : 1 + rm.len ≤ maxLength := by
    obtain ⟨-, hrm⟩ := Laws.EncodedLength.rm_len rm
    rw [maxLength]
    omega
  refine fieldFetchFaults_of_decode (modrm := some (rm.byte sel)) (hlen.trans_le hmax) (fun rest hshort => ?_) s
  obtain rfl : rest = [] := List.length_eq_zero_iff.mp (Nat.lt_one_iff.mp hshort)
  rw [List.append_nil, hlen]
  exact decode_imm8_cutOff hw hsel

end

/-- The decode errors of an instruction with an immediate byte after its r/m operand: those of the operand, and the
immediate's own. -/
theorem decodeErrorsFault_of_imm8 {i : Instr} {rm : RM} {s : State} (hrm : i.rm? = some rm)
    (hlen : i.length = 2 + rm.len) (hw : rm.wellFormed = true)
    (himm : FieldFetchFaults s (i.opcode :: rm.byte i.regField :: rm.dispBytes) (rm.byte i.regField) .byte) :
    DecodeErrorsFault i s := by
  have hop := readsModRM_opcode hrm
  refine ⟨fun hr n hn hc hend => ?cutOff, fun hr b hb hc => hop.faults_rejected hr hb hc⟩
  have hmodrm : i.modrm?.getD 0#8 = rm.byte i.regField := by simp [Instr.modrm?, hrm, RM.byte]
  rw [encode_of_rm hrm] at hc
  rw [hmodrm, fieldFetch, hrm]
  by_cases hn' : n < 1 + rm.len
  · simpa only [if_pos hn'] using hop.faults_cutOff hw hn' hr hc hend
  · obtain rfl : n = 1 + rm.len := by omega
    have hlen := length_throughOperand i.opcode rm i.regField
    obtain ⟨hpos, -⟩ := Laws.EncodedLength.rm_len rm
    rw [← List.cons_append, ← List.cons_append, ← hlen, List.take_left] at hc
    have hf := himm hr hc (by rw [hlen, hend]; exact Nat.lt_succ_self _)
    rw [hlen] at hf
    simpa only [lt_irrefl, if_false, List.headD_cons, if_neg (by omega : ¬ 1 + rm.len = 0),
      if_neg (by omega : ¬ 1 + rm.len ≤ 1)] using hf

/-! ### The obligations -/

/-- Settles O31, by the value of each `BitVec` operation. -/
theorem aluOperationsWrap : Obligations.AluOperationsWrap := by
  intro a b
  refine ⟨BitVec.toNat_add a b, ?sub, BitVec.toNat_add a 1#32, fun imm => BitVec.toInt_signExtend_of_le (by decide)⟩
  case sub =>
    rw [sub32, BitVec.toNat_sub]
    omega

/-- Settles O32: ADD r/m32, r32 is a read-modify-write of its r/m operand. -/
theorem addRmRegAddsIntoTheOperand : Obligations.AddRmRegAddsIntoTheOperand := by
  intro rm reg s hw i
  exact ⟨encode_of_rm_last rfl rfl, updatesRm_of_modifyRm rfl hw, decodeErrorsFault_of_rm rfl rfl hw s⟩

/-- Settles O33, by the place of the second operand. -/
theorem addRegRmAddsIntoTheRegister : Obligations.AddRegRmAddsIntoTheRegister := by
  intro reg rm s hw i
  simp only [← inRange_iff, ← inRange_eq_false_iff]
  refine ⟨encode_of_rm_last rfl rfl, fun r hloc => ?reg, fun a hloc hr => ?mem, fun a hloc hr => ?outside,
    decodeErrorsFault_of_rm rfl rfl hw s⟩
  case reg =>
    exact ⟨_, exec_addRegRm_of_read hw (by rw [hloc, readLoc_reg]), setReg_alu_commits s reg _ _⟩
  case mem =>
    exact ⟨_, exec_addRegRm_of_read hw (by rw [hloc, readLoc_mem, memRead32_of_inRange hr]),
      setReg_alu_commits s reg _ _⟩
  case outside =>
    exact exec_of_access rfl hw (by rw [hloc, readLoc_mem, memRead32_of_outside hr]; rfl)

/-- Settles O34: ADD r/m32, imm8 is a read-modify-write, with selector 0 of group 83. -/
theorem addRmImm8AddsTheSignExtendedImmediate : Obligations.AddRmImm8AddsTheSignExtendedImmediate := by
  intro rm imm s hw i b
  have himm := fieldFetchFaults_imm8 (sel := 0#3) hw (.inl rfl) s
  exact ⟨encode_of_rm rfl, updatesRm_of_modifyRm rfl hw, himm, decodeErrorsFault_of_imm8 rfl rfl hw himm⟩

/-- Settles O35: SUB r/m32, imm8 is a read-modify-write, with selector 5 of group 83. -/
theorem subRmImm8SubtractsTheSignExtendedImmediate : Obligations.SubRmImm8SubtractsTheSignExtendedImmediate := by
  intro rm imm s hw i b
  have himm := fieldFetchFaults_imm8 (sel := 5#3) hw (.inr rfl) s
  exact ⟨encode_of_rm rfl, updatesRm_of_modifyRm rfl hw, himm, decodeErrorsFault_of_imm8 rfl rfl hw himm⟩

/-- Settles O36: INC r/m32 is a read-modify-write of its r/m operand. -/
theorem incRmAddsOne : Obligations.IncRmAddsOne := by
  intro rm s hw i
  exact ⟨encode_of_rm_last rfl rfl, updatesRm_of_modifyRm rfl hw, decodeErrorsFault_of_rm rfl rfl hw s⟩

end Sys2Proof.Machine
end

section
/-! The stack and calls (42_stack_call.md R130 to R138): what the Push and Pop primitives leave, the instructions built on them, and the round trips of a push followed by a pop. -/

namespace Sys2Proof.Machine

/-! ### Push and Pop -/

section
variable {s t : State} {v : Word}

/-- What a push leaves alone: all but ESP and the four bytes it stores (R130). -/
theorem push_frame (h : push v s = .ok t) :
    RegsKeptBut [.esp] s t ∧ MemKeptBut (s.reg .esp - 4#32).toNat s t ∧ PlainCommit s t s.pc := by
  have hw := WritesOnly.of_push h
  have hc := Committed.of_push h
  refine ⟨hw.regs, fun b hb => KeptOutside.of_push h b fun a ha => ?_, hw.pc, hw.flags, hc.runState, hc.fault, hc.params⟩
  cases ha
  exact hb

/-- What a pop leaves: ESP past the popped word, and all else (R131). -/
theorem pop_frame (h : pop s = .ok (v, t)) :
    t.reg .esp = s.reg .esp + 4#32 ∧ RegsKeptBut [.esp] s t ∧ MemKept s t ∧ PlainCommit s t s.pc := by
  obtain ⟨-, -, rfl⟩ := pop_eq_ok.mp h
  exact ⟨s.reg_setReg_same .esp _, regsKeptBut_setReg s .esp _, fun _ => rfl, rfl, rfl, rfl, rfl, rfl⟩

/-- A pop after a push yields the pushed word and takes ESP back, wherever `pc` went between (R131). -/
theorem pop_setPc_of_push (h : push v s = .ok t) (pc : Word) :
    pop (t.setPc pc) = .ok (v, (t.setPc pc).setReg .esp (s.reg .esp)) := by
  obtain ⟨hr, -⟩ := push_eq_ok.mp h
  obtain ⟨hesp, hword, hparams⟩ := push_stores h
  refine pop_eq_ok.mpr ⟨?_, ?_, ?_⟩
  · rwa [State.setPc_inRange, State.setPc_reg, hesp, inRange_iff, hparams, ← inRange_iff]
  · rw [State.setPc_wordAt, State.setPc_reg, hesp, hword]
  · rw [State.setPc_reg, hesp, BitVec.sub_add_cancel]

/-- The one register that was written, put back, restores the register file. -/
theorem setReg_regs_of_regsKeptBut {r : Reg} (h : RegsKeptBut [r] s t) : (t.setReg r (s.reg r)).regs = s.regs := by
  refine Regs.ext_get fun r' => ?_
  by_cases hr : r' = r
  · subst hr
    exact State.reg_setReg_same t r' _
  · exact (State.reg_setReg_of_ne t _ hr).trans (h r' (by simpa using hr))

end

/-! ### What the instructions commit -/

section
variable {s t : State} {v : Word}

theorem exec_callRel32_of_push {rel : BitVec 32} (h : push (s.pc + 5#32) s = .ok t) :
    exec (.callRel32 rel) s = .next (t.setPc (s.pc + 5#32 + rel)) := exec_of_ok rfl rfl (bind_eq_ok.mpr ⟨t, h, rfl⟩)

theorem exec_popReg_of_pop {r : Reg} (h : pop s = .ok (v, t)) :
    exec (.popReg r) s = .next ((t.setReg r v).advance 1) := exec_of_ok rfl rfl (bind_eq_ok.mpr ⟨(v, t), h, rfl⟩)

theorem exec_ret_of_pop (h : pop s = .ok (v, t)) : exec .ret s = .next (t.setPc v) :=
  exec_of_ok rfl rfl (bind_eq_ok.mpr ⟨(v, t), h, rfl⟩)

end

/-- An instruction that pushes and then writes `pc`: the frame is the push's, and its WRITE is what can fail. -/
theorem pushes_of_push {i : Instr} {v pc : Word} {s : State} {target : State → Word} (hw : i.wellFormed = true)
    (he : exec i s = transact i s (push v s >>= fun t => pure (t.setPc (target t))))
    (hpc : ∀ t, t.pc = s.pc → target t = pc) : Pushes i v pc s := by
  simp only [Pushes, ← inRange_iff, ← inRange_eq_false_iff]
  refine ⟨fun hr => ?_, fun hr => exec_of_access he hw (by rw [push_of_outside hr]; rfl)⟩
  have h := push_of_inRange (v := v) hr
  obtain ⟨hesp, hword, -⟩ := push_stores h
  obtain ⟨hregs, hmem, htpc, hflags, hcontrol⟩ := push_frame h
  exact ⟨_, exec_of_ok he hw (bind_eq_ok.mpr ⟨_, h, rfl⟩), hesp, hword, hregs, hmem, hpc _ htpc, hflags, hcontrol⟩

/-- A push that advances `pc` by its length. -/
theorem pushes_of_push_advance {i : Instr} {v : Word} {s : State} (hw : i.wellFormed = true)
    (he : exec i s = transact i s (push v s >>= fun t => pure (t.advance i.length))) :
    Pushes i v (s.pc + BitVec.ofNat 32 i.length) s :=
  pushes_of_push hw he fun _ h => by rw [h]

/-- The 8-bit field right after an opcode byte (30_encoding.md R73; R81, check 7). -/
theorem fieldFetchFaults_byte_after_opcode {op : Byte} {e : Entry} {k : Byte × List Byte → Decoded Instr}
    (hd : dispatch op = some e) (he : ∀ bs, decodeEntry op bs e = takeByte 1 (some op) none bs >>= k) (s : State) :
    FieldFetchFaults s [op] 0#8 .byte := by
  refine fieldFetchFaults_of_decode (before := [op]) (modrm := none) (Nat.le_add_left 1 6) (fun rest hshort => ?_) s
  obtain rfl : rest = [] := List.length_eq_zero_iff.mp (Nat.lt_one_iff.mp hshort)
  rw [List.append_nil, decode_cons op [] e hd, he, takeByte_nil]
  rfl

/-! ### The obligations -/

/-- Settles O46: the pop takes ESP back, so only the popped register differs. -/
theorem pushThenPopMovesARegister : Obligations.PushThenPopMovesARegister := by
  intro r q s hin
  obtain ⟨t, hpush⟩ : ∃ t, push (s.reg r) s = .ok t := ⟨_, push_of_inRange ((inRange_iff s _ 4).mpr hin)⟩
  have hpop := pop_setPc_of_push hpush (t.pc + 1#32)
  have hrest : ∀ r', ((t.setPc (t.pc + 1#32)).setReg .esp (s.reg .esp)).reg r' = s.reg r' := fun r' =>
    congrArg (Regs.get · r') (setReg_regs_of_regsKeptBut (push_frame hpush).1)
  refine ⟨_, _, exec_pushReg_of_push hpush, exec_popReg_of_pop hpop, State.reg_setReg_same _ _ _, fun hq => ?_,
    fun r' hr' => ?_⟩
  · rw [State.advance_reg, State.reg_setReg_of_ne _ _ hq.symm, hrest]
  · rw [State.advance_reg, State.reg_setReg_of_ne _ _ (fun h => hr' (by simp [h])), hrest]

/-- Settles O47: RET pops the pushed return address, and ESP is the only register CALL wrote. -/
theorem retAfterCallReturns : Obligations.RetAfterCallReturns := by
  intro rel s hin
  obtain ⟨t, hpush⟩ : ∃ t, push (s.pc + 5#32) s = .ok t := ⟨_, push_of_inRange ((inRange_iff s _ 4).mpr hin)⟩
  exact ⟨_, _, exec_callRel32_of_push hpush, exec_ret_of_pop (pop_setPc_of_push hpush _), rfl,
    setReg_regs_of_regsKeptBut (push_frame hpush).1⟩

/-- Settles O37, by the bounds check of the store. -/
theorem pushDecrementsThenStores : Obligations.PushDecrementsThenStores := by
  intro v s a
  simp only [← inRange_iff, ← inRange_eq_false_iff]
  refine ⟨fun hr => ?_, push_of_outside⟩
  have h := push_of_inRange (v := v) hr
  obtain ⟨hesp, hword, -⟩ := push_stores h
  exact ⟨_, h, hesp, hword, push_frame h⟩

/-- Settles O38, by the bounds check of the load. -/
theorem popLoadsThenIncrements : Obligations.PopLoadsThenIncrements := by
  intro s a
  simp only [← inRange_iff, ← inRange_eq_false_iff]
  exact ⟨fun hr => ⟨_, pop_of_inRange hr, pop_frame (pop_of_inRange hr)⟩, pop_of_outside⟩

/-- Settles O39: the value is read before the push. -/
theorem pushRegPushesTheOldValue : Obligations.PushRegPushesTheOldValue := fun r s =>
  ⟨rfl, pushes_of_push_advance (i := .pushReg r) rfl rfl, opcodeFetchFaults s⟩

/-- Settles O40: the popped register is written after ESP. -/
theorem popRegLoadsTheStackTop : Obligations.PopRegLoadsTheStackTop := by
  intro r s i a
  simp only [← inRange_iff, ← inRange_eq_false_iff]
  refine ⟨rfl, fun hr => ?_, fun hr => exec_of_access rfl rfl (by rw [pop_of_outside hr]; rfl), opcodeFetchFaults s⟩
  have hpop := pop_of_inRange hr
  have hw := (WritesOnly.refl (rs := [.esp, r]) s).pop (by simp) hpop
  refine ⟨_, exec_popReg_of_pop hpop, State.reg_setReg_same _ _ _, fun hne => ?_, (hw.setReg (by simp) _).regs,
    fun _ => rfl, rfl, rfl, rfl, rfl, rfl⟩
  rw [State.advance_reg, State.reg_setReg_of_ne _ _ hne.symm, State.reg_setReg_same]

/-- Settles O41, by the push of the immediate and the fetch of its byte. -/
theorem pushImm8PushesTheSignExtendedImmediate : Obligations.PushImm8PushesTheSignExtendedImmediate := fun imm s =>
  ⟨rfl, pushes_of_push_advance (i := .pushImm8 imm) rfl rfl,
    fieldFetchFaults_byte_after_opcode (dispatch_opcode .pushImm8) (fun _ => rfl) s⟩

/-- Settles O42, by the push of the immediate and the fetch of its word. -/
theorem pushImm32PushesTheImmediate : Obligations.PushImm32PushesTheImmediate := fun imm s =>
  ⟨rfl, pushes_of_push_advance (i := .pushImm32 imm) rfl rfl,
    fieldFetchFaults_imm32 (dispatch_opcode .pushImm32) (fun _ => rfl) s⟩

/-- Settles O43: a push of the next instruction's address, whose `pc` is the target. -/
theorem callPushesTheReturnAddressAndJumps : Obligations.CallPushesTheReturnAddressAndJumps := fun rel s =>
  ⟨rfl, pushes_of_push (i := .callRel32 rel) (target := fun _ => s.pc + 5#32 + rel) rfl rfl fun _ _ => rfl,
    fieldFetchFaults_imm32 (dispatch_opcode .callRel32) (fun _ => rfl) s⟩

/-- Settles O44, by the bounds check of the pop. -/
theorem retPopsTheProgramCounter : Obligations.RetPopsTheProgramCounter := by
  intro s a
  simp only [← inRange_iff, ← inRange_eq_false_iff]
  refine ⟨rfl, fun hr => ?_, fun hr => exec_of_access rfl rfl (by rw [pop_of_outside hr]; rfl), opcodeFetchFaults s⟩
  have hpop := pop_of_inRange hr
  obtain ⟨hesp, hregs, hmem, -, hkept⟩ := pop_frame hpop
  exact ⟨_, exec_ret_of_pop hpop, hesp, hregs, hmem, rfl, hkept⟩

/-- Settles O45: LEAVE is a pop from the state whose ESP is the old EBP, and a failed pop enters its fault from the state
before that move. -/
theorem leaveTearsDownTheFrame : Obligations.LeaveTearsDownTheFrame := by
  intro s a
  have hesp : (s.setReg .esp a).reg .esp = a := State.reg_setReg_same _ _ _
  simp only [← inRange_iff, ← inRange_eq_false_iff]
  refine ⟨rfl, fun hr => ?inRange, fun hr => ?outside, opcodeFetchFaults s⟩
  case inRange =>
    have hpop := pop_of_inRange (s := s.setReg .esp a) (by rwa [hesp])
    have hw := ((WritesOnly.refl (rs := [.esp, .ebp]) s).setReg (by simp) a).pop (by simp) hpop
    exact ⟨_, exec_leave_of_pop hpop, rfl, rfl, (hw.setReg (by simp) _).regs, fun _ => rfl, rfl, rfl, rfl, rfl, rfl⟩
  case outside =>
    exact exec_of_access rfl rfl (by rw [pop_of_outside (by rwa [hesp])]; rfl)

end Sys2Proof.Machine
end

section
/-! The unconditional relative jumps (43_jump.md R150, R151): a commit of `pc` alone, with no check of the target. -/

namespace Sys2Proof.Machine

/-- A relative jump commits `pc` and nothing else. -/
theorem jumpRelative_commits (len : Nat) (rel : Word) (s : State) :
    RegsKeptBut [] s (jumpRelative len rel s) ∧ MemKept s (jumpRelative len rel s) ∧
      PlainCommit s (jumpRelative len rel s) (s.pc + BitVec.ofNat 32 len + rel) :=
  ⟨fun _ _ => rfl, fun _ => rfl, rfl, rfl, rfl, rfl, rfl⟩

theorem exec_jmpRel8 (rel : BitVec 8) (s : State) :
    exec (.jmpRel8 rel) s = .next (jumpRelative 2 (sext32 rel) s) := exec_of_ok rfl rfl rfl

theorem exec_jmpRel32 (rel : BitVec 32) (s : State) :
    exec (.jmpRel32 rel) s = .next (jumpRelative 5 rel s) := exec_of_ok rfl rfl rfl

/-! ### The obligations -/

/-- Settles O49, by the jump's commit and the fetch of its displacement byte. -/
theorem jmpRel8JumpsRelative : Obligations.JmpRel8JumpsRelative := fun rel s =>
  ⟨rfl, ⟨_, exec_jmpRel8 rel s, jumpRelative_commits 2 (sext32 rel) s⟩,
    fieldFetchFaults_byte_after_opcode (dispatch_opcode .jmpRel8) (fun _ => rfl) s, opcodeFetchFaults s⟩

/-- Settles O50, by the jump's commit and the fetch of its displacement word. -/
theorem jmpRel32JumpsRelative : Obligations.JmpRel32JumpsRelative := fun rel s =>
  ⟨rfl, ⟨_, exec_jmpRel32 rel s, jumpRelative_commits 5 rel s⟩,
    fieldFetchFaults_imm32 (dispatch_opcode .jmpRel32) (fun _ => rfl) s, opcodeFetchFaults s⟩

end Sys2Proof.Machine
end

section
/-! The fatal errors the decoder raises by name (60_exceptions.md R201 to R203): an unmapped opcode byte, a group selector without an instruction, and a rejected ModRM form. -/

namespace Sys2Proof.Machine

/-- A step at bytes that the decoder rejects, whatever follows them, enters the fault of that error. -/
theorem step_of_rejected {s : State} {bs : List Byte} {e : DecodeError} (hr : s.runState = .running)
    (hc : CodeAt s bs) (hlen : bs.length ≤ maxLength) (h : ∀ rest, decode (bs ++ rest) = .error e) :
    step s = .next (fetchFault s e) := by
  obtain ⟨rest, hwin⟩ := fetchWindow_of_codeAt hc hlen
  exact step_of_decode_error hr (hwin ▸ h rest)

/-- Where `pc` is inside memory, memory holds the byte there. -/
theorem codeAt_byteAt_pc {s : State} (h : s.pc.toNat < s.params.memSize) : CodeAt s [s.byteAt s.pc.toNat] := by
  refine ⟨h, fun k hk => ?_⟩
  obtain rfl : k = 0 := Nat.lt_one_iff.mp hk
  rfl

/-- Settles O13: an unmapped byte is rejected whatever follows it. -/
theorem unsupportedOpcodeFaults : Obligations.UnsupportedOpcodeFaults := by
  intro s hr hpc hop
  have hstep := step_of_rejected hr (codeAt_byteAt_pc hpc) (Nat.le_add_left 1 6)
    (decode_unmapped ((dispatch_eq_none_iff _).mpr hop))
  exact faultsWith_enterFault (f := .unsupportedOpcode _) rfl hstep

/-- The six opcode bytes of the ModRM formats (30_encoding.md R62, R75). -/
theorem readsModRM_of_mem {op : Byte} (h : op ∈ [0x01#8, 0x03#8, 0x89#8, 0x8B#8, 0x83#8, 0xFF#8]) : ReadsModRM op := by
  simp only [List.mem_cons, List.not_mem_nil, or_false] at h
  rcases h with rfl | rfl | rfl | rfl | rfl | rfl
  · exact readsModRM_opcode (i := .addRmReg (.reg .eax) .eax) rfl
  · exact readsModRM_opcode (i := .addRegRm .eax (.reg .eax)) rfl
  · exact readsModRM_opcode (i := .movRmReg (.reg .eax) .eax) rfl
  · exact readsModRM_opcode (i := .movRegRm .eax (.reg .eax)) rfl
  · exact readsModRM_opcode (i := .addRmImm8 (.reg .eax) 0#8) rfl
  · exact readsModRM_opcode (i := .incRm (.reg .eax)) rfl

/-- Settles O15, for any opcode byte that is followed by a ModRM byte. -/
theorem unsupportedAddressingFaults : Obligations.UnsupportedAddressingFaults :=
  fun _ _ _ hr hop hb hc => (readsModRM_of_mem hop).faults_rejected hr hb hc

/-- A group byte and a selector with no instruction in its group (30_encoding.md R76, R77). -/
def SelectorUnmapped (op : Byte) (sel : BitVec 3) : Prop :=
  (op = 0x83#8 ∧ sel ≠ 0#3 ∧ sel ≠ 5#3) ∨ (op = 0xFF#8 ∧ sel ≠ 0#3)

namespace SelectorUnmapped

variable {op : Byte} {sel : BitVec 3} (h : SelectorUnmapped op sel)
include h

theorem readsModRM : ReadsModRM op := by
  rcases h with ⟨rfl, -⟩ | ⟨rfl, -⟩
  · exact readsModRM_of_mem (by decide)
  · exact readsModRM_of_mem (by decide)

/-- The selector is rejected once the displacement is read, whatever follows. -/
theorem decode_eq_error {rm : RM} (hw : rm.wellFormed = true) (rest : List Byte) :
    decode ((op :: rm.byte sel :: rm.dispBytes) ++ rest) = .error (.unsupportedGroupSelector op (rm.byte sel)) := by
  obtain ⟨-, -, h83, -, hFF⟩ := groupSelectorsChooseTheInstruction rm sel rest hw
  rcases h with ⟨rfl, h0, h5⟩ | ⟨rfl, h0⟩
  · exact h83 h0 h5
  · exact hFF h0

end SelectorUnmapped

/-- Settles O14: with its displacement in memory the selector is rejected; before that, the fetch that is cut off is. -/
theorem unsupportedGroupSelectorFaults : Obligations.UnsupportedGroupSelectorFaults := by
  intro s op rm sel hr hw hsel
  have hsel : SelectorUnmapped op sel := hsel
  refine ⟨fun hc => ?rejected, fun n hn hc hend => ?cutOff⟩
  case rejected =>
    have hmax : (op :: rm.byte sel :: rm.dispBytes).length ≤ maxLength := by
      obtain ⟨-, hrm⟩ := Laws.EncodedLength.rm_len rm
      rw [length_throughOperand, maxLength]
      omega
    exact faultsWith_enterFault (f := .unsupportedGroupSelector op _) rfl
      (step_of_rejected hr hc hmax (hsel.decode_eq_error hw))
  case cutOff =>
    rw [← List.append_nil rm.dispBytes] at hc
    exact hsel.readsModRM.faults_cutOff hw hn hr hc hend

end Sys2Proof.Machine
end

section
/-! The host's requests (60_exceptions.md R205, R208, R216, R217): stop and resume, refused accesses, the sticky FAULTED, and the invariant under every request. -/

namespace Sys2Proof.Machine

/-! ### Stop and resume -/

/-- Settles O55, by the run state. -/
theorem stopAndResumeChangeOnlyTheRunState : Obligations.StopAndResumeChangeOnlyTheRunState := by
  intro s
  cases hr : s.runState <;> simp [host, hostStop, hostResume, hr]

/-! ### Refused accesses -/

section
variable {s : State} {v : Word} {a : Nat} {w : AccessWidth}

theorem regOfIndex_of_le {k : Nat} (h : 8 ≤ k) : regOfIndex k = none := if_neg (Nat.not_lt.mpr h)

/-- A memory access out of range is refused with its offset and width, and changes nothing. -/
theorem hostWrite_mem_of_outside (h : s.inRange a w.bytes = false) :
    hostWrite s v (.mem a w) = (s, .memoryOutOfRange a w) := by
  cases w with
  | byte => rw [hostWrite, memWrite8_of_outside h]
  | dword => rw [hostWrite, memWrite32_of_outside h]

theorem readWritable_mem_of_outside (h : s.inRange a w.bytes = false) :
    readWritable s (.mem a w) = .memoryOutOfRange a w := by
  cases w with
  | byte => rw [readWritable, memRead8_of_outside h]
  | dword => rw [readWritable, memRead32_of_outside h]

end

/-- Settles O58: no register has such an index, and the bounds check fails. -/
theorem badHostAccessesAreRefused : Obligations.BadHostAccessesAreRefused := by
  intro s v
  refine ⟨fun k hk => ?register, fun a w hout => ?memory⟩
  case register => simp [host, hostWrite, hostRead, readWritable, regOfIndex_of_le hk]
  case memory =>
    have hout := (inRange_eq_false_iff s a w.bytes).mpr hout
    exact ⟨hostWrite_mem_of_outside hout, congrArg (Prod.mk s) (readWritable_mem_of_outside hout)⟩

/-! ### FAULTED is sticky -/

/-- A request other than reset leaves FAULTED and its report as they are (R208). -/
theorem host_keeps_faulted {s : State} {r : HostRequest} (hs : s.runState = .faulted) (hr : ∀ init, r ≠ .reset init) :
    (host s r).1.runState = .faulted ∧ (host s r).1.fault = s.fault := by
  obtain ⟨-, -, hstop, hresume⟩ := stopAndResumeChangeOnlyTheRunState s
  cases r with
  | reset init => exact absurd rfl (hr init)
  | step =>
    rw [(stepRequestWhenNotRunningChangesNothing s (by simp [hs])).2]
    exact ⟨hs, rfl⟩
  | stop =>
    rw [hstop (by simp [hs])]
    exact ⟨hs, rfl⟩
  | resume =>
    rw [hresume (by simp [hs])]
    exact ⟨hs, rfl⟩
  | read l => exact ⟨hs, rfl⟩
  | write l v =>
    obtain ⟨hrun, hfault, -⟩ := hostWrite_controlKept s v l
    exact ⟨hrun.trans hs, hfault⟩

/-- Settles O17, by induction on the requests. -/
theorem faultedIsStickyUntilReset : Obligations.FaultedIsStickyUntilReset := by
  intro s rs hs hrs
  refine ⟨(stepRequestWhenNotRunningChangesNothing s (by simp [hs])).2, ?_⟩
  induction rs generalizing s with
  | nil => exact ⟨hs, rfl⟩
  | cons r rs ih =>
    obtain ⟨hr, hrs⟩ := List.forall_mem_cons.mp hrs
    obtain ⟨hrun, hfault⟩ := host_keeps_faulted hs hr
    obtain ⟨hrun', hfault'⟩ := ih _ hrun hrs
    exact ⟨hrun', hfault'.trans hfault⟩

/-! ### The invariant -/

/-- What an inspection write leaves: a commit's change, or one byte written in range (R216; 20_memory.md R43). -/
theorem hostWrite_fst_cases (s : State) (v : Word) (l : Writable) :
    Committed s (hostWrite s v l).1 ∨ ∃ a b, memWrite8 a b s = .ok (hostWrite s v l).1 := by
  have hs := Committed.refl s
  cases l with
  | reg index =>
    rw [hostWrite]
    cases regOfIndex index with
    | some r => exact .inl (hs.setReg r v)
    | none => exact .inl hs
  | pc => exact .inl (hs.setPc v)
  | flags => exact .inl (hs.of_same rfl rfl rfl rfl)
  | mem a width =>
    cases width with
    | byte =>
      rw [hostWrite]
      cases h : memWrite8 a (byteOfWord v 0) s with
      | ok t => exact .inr ⟨a, _, h⟩
      | error f => exact .inl hs
    | dword =>
      rw [hostWrite]
      cases h : memWrite32 a v s with
      | ok t => exact .inl (.of_memWrite32 h)
      | error f => exact .inl hs

/-- A loader's image lies below its length. -/
theorem Memory.within_ofImage {image : List Byte} {size : Nat} (h : image.length ≤ size) :
    (Memory.ofImage image).within size := by
  intro c hc
  rcases Memory.fst_mem_writeBytes hc with ⟨-, hlt⟩ | hm
  · omega
  · exact absurd hm List.not_mem_nil

/-- Where the core is not FAULTED, a legal report is no report (10_state.md R29). -/
theorem State.reportLegal_iff_of_ne_faulted {s : State} (hs : s.runState ≠ .faulted) :
    s.reportLegal ↔ s.fault = FaultRegs.none := by
  unfold State.reportLegal
  cases hr : s.runState with
  | faulted => exact absurd hr hs
  | running | stopped => rfl

namespace Inv

variable {s : State} (h : Inv s)
include h

/-- A byte written in range keeps the invariant. -/
theorem of_memWrite8 {t : State} {a : Nat} {b : Byte} (hw : memWrite8 a b s = .ok t) : Inv t := by
  obtain ⟨hp, hwf, hin, hrep⟩ := h
  obtain ⟨hr, rfl⟩ := memWrite8_eq_ok.mp hw
  refine ⟨hp, Memory.wf_writeByte a b hwf, fun c hc => ?_, hrep⟩
  rcases Memory.fst_mem_writeByte hc with hca | hm
  · rw [hca]
    exact (inRange_iff s a 1).mp hr
  · exact hin c hm

/-- The image is cut at the capacity (log 14), so it lies inside it whatever its length. -/
theorem hostReset (init : Init) : Inv (hostReset init s) :=
  ⟨h.1, Memory.wf_ofImage _, Memory.within_ofImage (List.length_take_le _ _), rfl⟩

theorem hostStep : Inv (hostStep s).1 := by
  rcases hostStep_fst_cases s with hs | hs
  · rwa [hs]
  · exact stepKeepsTheStateLegal s _ h hs

/-- RUNNING and STOPPED go with the same fault registers, so a change between them keeps the invariant (R217). -/
theorem setRunState {r : RunState} (hs : s.runState ≠ .faulted) (hr : r ≠ .faulted) : Inv { s with runState := r } := by
  obtain ⟨hp, hwf, hin, hrep⟩ := h
  rw [State.reportLegal_iff_of_ne_faulted hs] at hrep
  exact ⟨hp, hwf, hin, (State.reportLegal_iff_of_ne_faulted hr).mpr hrep⟩

theorem hostStop : Inv (hostStop s) := by
  unfold Machine.hostStop
  split
  · next hr => exact h.setRunState (by simp [hr]) (by decide)
  · exact h
  · exact h

theorem hostResume : Inv (hostResume s) := by
  unfold Machine.hostResume
  split
  · next hr => exact h.setRunState (by simp [hr]) (by decide)
  · exact h
  · exact h

theorem hostWrite (v : Word) (l : Writable) : Inv (hostWrite s v l).1 := by
  rcases hostWrite_fst_cases s v l with hc | ⟨a, b, hw⟩
  · exact h.of_committed hc
  · exact h.of_memWrite8 hw

end Inv

/-- Settles O21, by the kind of request. -/
theorem hostRequestsKeepTheStateLegal : Obligations.HostRequestsKeepTheStateLegal := by
  intro s r h
  cases r with
  | reset init => exact h.hostReset init
  | step => exact h.hostStep
  | stop => exact h.hostStop
  | resume => exact h.hostResume
  | read l => exact h
  | write l v => exact h.hostWrite v l

end Sys2Proof.Machine
end

section
/-! How a run ends (70_reset_and_hazards.md R242, R243): the end it reports is the loop test's answer in the state it leaves. -/

namespace Sys2Proof.Machine

section
variable {continues : Nat → State → Bool} {s : State}

/-- A predicate that every step request of a RUNNING core keeps holds of the state a run leaves. -/
theorem runLoop_keeps {P : State → Prop} (hstep : ∀ s, s.runState = .running → P s → P (hostStep s).1)
    (fuel taken : Nat) (h : P s) : P (runLoop continues fuel taken s).1 := by
  induction fuel generalizing taken s with
  | zero =>
    cases he : runEnd? continues taken s with
    | some e => rwa [runLoop_of_end he]
    | none => rwa [runLoop_zero he]
  | succ fuel ih =>
    cases he : runEnd? continues taken s with
    | some e => rwa [runLoop_of_end he]
    | none =>
      rw [runLoop_succ he]
      exact ih _ (hstep s (runEnd?_eq_none.mp he).1 h)

/-- A run reports what the loop's test answers in the state it leaves, and unfinished where that is to go on. -/
theorem runLoop_snd_eq (fuel taken : Nat) :
    ∃ k, (runLoop continues fuel taken s).2 =
      (runEnd? continues k (runLoop continues fuel taken s).1).getD .unfinished := by
  induction fuel generalizing taken s with
  | zero =>
    refine ⟨taken, ?_⟩
    cases he : runEnd? continues taken s with
    | some e => rw [runLoop_of_end he, he, Option.getD_some]
    | none => rw [runLoop_zero he, he, Option.getD_none]
  | succ fuel ih =>
    cases he : runEnd? continues taken s with
    | some e => exact ⟨taken, by rw [runLoop_of_end he, he, Option.getD_some]⟩
    | none =>
      rw [runLoop_succ he]
      exact ih _

/-- A run reports faulted exactly when it leaves the core FAULTED (R243). -/
theorem runLoop_faulted_iff (fuel taken : Nat) :
    (runLoop continues fuel taken s).2 = .faulted ↔ (runLoop continues fuel taken s).1.runState = .faulted := by
  obtain ⟨k, hk⟩ := runLoop_snd_eq (continues := continues) (s := s) fuel taken
  rw [hk]
  cases he : runEnd? continues k (runLoop continues fuel taken s).1 with
  | some e => exact (runEnd?_eq_some he).2
  | none => simp [(runEnd?_eq_none.mp he).1]

/-- Under a policy that always goes on, only a core that the host has STOPPED ends stopped, and a RUNNING core is no end. -/
theorem runLoop_of_always (hc : ∀ k t, continues k t = true) (fuel taken : Nat) :
    ((runLoop continues fuel taken s).2 = .stopped → (runLoop continues fuel taken s).1.runState = .stopped) ∧
    ((runLoop continues fuel taken s).1.runState = .running → (runLoop continues fuel taken s).2 = .unfinished) := by
  obtain ⟨k, hk⟩ := runLoop_snd_eq (continues := continues) (s := s) fuel taken
  rw [hk, runEnd?]
  cases (runLoop continues fuel taken s).1.runState <;> simp [hc]

end

/-- A state that a run of a RUNNING core can be in: RUNNING still, or FAULTED with a legal report. -/
def RunningOrReported (s : State) : Prop := s.runState = .running ∨ s.runState = .faulted ∧ s.fault.legal

theorem hostStep_runningOrReported {s : State} (hr : s.runState = .running) : RunningOrReported (hostStep s).1 := by
  obtain ⟨t, ht⟩ := stepAlwaysAnswersANextState s
  obtain ⟨heq, hcases⟩ := hostStep_of_running hr ht
  rwa [heq]

theorem runLoop_runningOrReported {s : State} (hr : s.runState = .running) (continues : Nat → State → Bool) (fuel : Nat) :
    RunningOrReported (runLoop continues fuel 0 s).1 :=
  runLoop_keeps (fun _ hr _ => hostStep_runningOrReported hr) fuel 0 (.inl hr)

/-- `EB FE` is a jump to itself: its step changes nothing (43_jump.md R150). -/
theorem hostStep_jump_to_itself {s : State} (hr : s.runState = .running) (hcode : CodeAt s [0xEB#8, 0xFE#8]) :
    (hostStep s).1 = s := by
  have hstep : step s = .next (jumpRelative 2 (sext32 0xFE#8) s) :=
    (encodedInstructionAtPcIsExecuted s (.jmpRel8 0xFE#8) rfl hr hcode).trans (exec_jmpRel8 0xFE#8 s)
  have hpc : s.pc + 2#32 + sext32 0xFE#8 = s.pc := by
    rw [BitVec.add_assoc, show 2#32 + sext32 0xFE#8 = 0#32 from by decide, BitVec.add_zero]
  rw [(hostStep_of_running hr hstep).1]
  exact congrArg s.setPc hpc

/-- Settles O60: where the run does not diverge, some bound on the requests reaches an end, which larger ones keep. -/
theorem runEndsFaultedOrStoppedOrDiverges : Obligations.RunEndsFaultedOrStoppedOrDiverges := by
  intro continues s
  refine ⟨?ends, fun hr hc => ⟨fun n hn => ?notStopped, fun hcode fuel => ?jump⟩⟩
  case ends =>
    by_cases hd : Diverges continues s
    · exact .inr (.inr hd)
    obtain ⟨n, hn⟩ := not_forall.mp hd
    have hiff := runLoop_faulted_iff (continues := continues) (s := s) n 0
    have hlast {e : RunEnd} (he : (runLoop continues n 0 s).2 = e) (m : Nat) (hm : n ≤ m) :
        runLoop continues m 0 s = ((runLoop continues n 0 s).1, e) := (runLoop_of_le hm hn).trans (Prod.ext rfl he)
    cases he : (runLoop continues n 0 s).2 with
    | faulted =>
      refine .inl ⟨n, _, ⟨hiff.mp he, fun hr => ?_⟩, hlast he⟩
      rcases runLoop_runningOrReported hr continues n with h | ⟨-, h⟩
      · simp [hiff.mp he] at h
      · exact h
    | stopped => exact .inr (.inl ⟨n, _, fun ht => by simp [hiff.mpr ht] at he, hlast he⟩)
    | unfinished => exact absurd he hn
  case notStopped =>
    have ht := (runLoop_of_always hc n 0).1 hn
    rcases runLoop_runningOrReported hr continues n with h | ⟨h, -⟩
    · simp [ht] at h
    · simp [ht] at h
  case jump =>
    have hlast : (runLoop continues fuel 0 s).1 = s :=
      runLoop_keeps (P := (· = s)) (by rintro _ - rfl; exact hostStep_jump_to_itself hr hcode) fuel 0 rfl
    exact (runLoop_of_always hc fuel 0).2 (by rw [hlast, hr])

end Sys2Proof.Machine
end

section
/-! Reset from the loader's inputs, and the run loop against the step requests it makes (70_reset_and_hazards.md R240, R242). -/

namespace Sys2Proof.Machine

/-! ### Reset -/

section
variable {init : Init} {s : State}

@[simp] theorem hostReset_reg_esp : (hostReset init s).reg .esp = init.sp :=
  Regs.get_set_same init.regs .esp init.sp

/-- The loader's registers but ESP, which `INIT_SP` replaces (92_eei_decisions.md D2). -/
theorem hostReset_reg_of_ne {r : Reg} (h : r ≠ .esp) : (hostReset init s).reg r = init.regs.get r :=
  Regs.get_set_of_ne init.regs init.sp h

/-- Nothing of a full image is cut off, so memory holds it byte by byte. -/
theorem hostReset_byteAt (hfull : init.image.length = s.params.memSize) {a : Nat} (h : a < init.image.length) :
    (hostReset init s).byteAt a = init.image[a] := by
  change (Memory.ofImage (init.image.take s.params.memSize)).readByte a = _
  rw [List.take_of_length_le hfull.le, Memory.readByte_ofImage, List.getD_eq_getElem _ _ h]

end

/-- Settles O54: the registers and the memory by their laws, every other piece of state as reset writes it. -/
theorem hostResetSetsTheState : Obligations.HostResetSetsTheState := by
  intro init s hfull
  exact ⟨hostReset init s, rfl, fun _ hr => hostReset_reg_of_ne hr, hostReset_reg_esp, rfl, rfl,
    fun _ ha => hostReset_byteAt hfull ha, rfl, rfl, rfl⟩

/-! ### The run loop -/

section
variable {continues : Nat → State → Bool} {taken : Nat} {s : State}

theorem runEnd?_of_not_continues (hr : s.runState = .running) (hc : continues taken s = false) :
    runEnd? continues taken s = some .stopped := by simp [runEnd?, hr, hc]

theorem runEnd?_of_stopped (hr : s.runState = .stopped) : runEnd? continues taken s = some .stopped := by
  simp [runEnd?, hr]

theorem runEnd?_of_faulted (hr : s.runState = .faulted) : runEnd? continues taken s = some .faulted := by
  simp [runEnd?, hr]

theorem Commits.hostStep_fst {t : State} (h : Commits s t) : (hostStep s).1 = t := by
  obtain ⟨hr, hstep, -⟩ := h
  exact (hostStep_of_running hr hstep).1

theorem Commits.running_after {t : State} (h : Commits s t) : t.runState = .running := h.2.2

/-- A step request that commits, followed by more step requests. -/
theorem Commits.hostRun_replicate_succ {t : State} (h : Commits s t) (n : Nat) :
    hostRun s (List.replicate (n + 1) .step) = hostRun t (List.replicate n .step) :=
  congrArg (hostRun · (List.replicate n .step)) h.hostStep_fst

/-- The step requests of a safe run leave the core RUNNING. -/
theorem SafeRun.hostRun_running {n : Nat} (hr : s.runState = .running) (hs : SafeRun n s) :
    (hostRun s (List.replicate n .step)).runState = .running := by
  induction n generalizing s with
  | zero => exact hr
  | succ n ih =>
    obtain ⟨t, hst, ht⟩ := hs
    rw [hst.hostRun_replicate_succ]
    exact ih hst.running_after ht

/-- Under a policy that always goes on, the loop over a safe run is the step requests it may make. -/
theorem SafeRun.runLoop_eq_hostRun (hc : ∀ k t, continues k t = true) {n : Nat} (hr : s.runState = .running)
    (hs : SafeRun n s) : runLoop continues n taken s = (hostRun s (List.replicate n .step), .unfinished) := by
  have hgo {k : Nat} {t : State} (ht : t.runState = .running) : runEnd? continues k t = none :=
    runEnd?_eq_none.mpr ⟨ht, hc k t⟩
  induction n generalizing taken s with
  | zero => exact runLoop_zero (hgo hr)
  | succ n ih =>
    obtain ⟨t, hst, ht⟩ := hs
    rw [runLoop_succ (hgo hr), hst.hostStep_fst, hst.hostRun_replicate_succ]
    exact ih hst.running_after ht

end

/-- Settles O59: the loop's first test by cases, its last test for the report, and a safe run by induction. -/
theorem runLoopFollowsThePolicyAndReportsFaults : Obligations.RunLoopFollowsThePolicyAndReportsFaults := by
  intro continues fuel taken s
  refine ⟨fun hr hc => ?goesOn, fun hr hc => runLoop_of_end (runEnd?_of_not_continues hr hc) fuel,
    fun hr => runLoop_of_end (runEnd?_of_stopped hr) fuel, fun hr => runLoop_of_end (runEnd?_of_faulted hr) fuel,
    runLoop_faulted_iff fuel taken, fun hr hs hc => ⟨hs.runLoop_eq_hostRun hc hr, hs.hostRun_running hr⟩⟩
  case goesOn =>
    have hgo : runEnd? continues taken s = none := runEnd?_eq_none.mpr ⟨hr, hc⟩
    exact ⟨runLoop_succ hgo fuel, runLoop_zero hgo⟩

end Sys2Proof.Machine
end
